-- ==== Sys2Proof/Word.lean ====
section
/-!
DEFINITION. The words of FPCV: bytes, and the 16-bit command and response words of the host port
(spec 00_scope.md R5, 30_encoding.md R62, R64). Every value is unsigned.
-/

namespace Sys2Proof

/-- A byte: 8 bits, bit 0 least significant (00_scope.md R5). -/
abbrev Byte := BitVec 8

/-- A command word of the host port (30_encoding.md R62). -/
abbrev CommandWord := BitVec 16

/-- A response word of the host port (30_encoding.md R64). -/
abbrev ResponseWord := BitVec 16

end Sys2Proof
end

