-- ==== Sys2Proof/Syntax.lean ====
section
/-!
DEFINITION. The seven commands of the host port (30_encoding.md R65), one constructor per row of
spec/opcode_table.json, and the register names of `RDR` (10_state.md R22).
-/

namespace Sys2Proof

/-- The register or view an `RDR` names (10_state.md R22). -/
inductive Reg where
  /-- Number 0. -/
  | status
  /-- Number 1. -/
  | cnt
  /-- Number 2. -/
  | rcode
  /-- Number 3. -/
  | plen
  /-- Number 4, a view. -/
  | csum
  /-- Number 5, a view with no value while fewer than three bytes are held. -/
  | len
  /-- Number 6. -/
  | flags
  /-- Numbers 7 to 255: a legal word that names a reserved register (30_encoding.md R66). -/
  | reserved (n : Byte)
  deriving DecidableEq, Repr

/-- The commands, one constructor per row of the opcode table (30_encoding.md R65). -/
inductive Instr where
  /-- `NOP` (40_intake.md R80). -/
  | nop
  /-- `CLR` (40_intake.md R81). -/
  | clr
  /-- `PUSH b`: `b` is the received byte (40_intake.md R82, R83). -/
  | push (b : Byte)
  /-- `VAL e`: `e` is the expected opcode (41_validate.md R106). -/
  | val (e : Byte)
  /-- `RDP i`: `i` is the index within the payload (42_readout.md R120). -/
  | rdp (i : Byte)
  /-- `RDB i`: `i` is the buffer index (42_readout.md R121). -/
  | rdb (i : Byte)
  /-- `RDR r`: `r` is the register or view (42_readout.md R122). -/
  | rdr (r : Reg)
  deriving DecidableEq, Repr

end Sys2Proof
end

