-- ==== Sys2Proof/WellFormed.lean ====
section
/-!
DEFINITION. Which terms of `Instr` are commands. Every byte is a legal operand (30_encoding.md R63,
R65); the one thing a term can get wrong is to call a number below 7 a reserved register
(10_state.md R22: the reserved numbers are 7 to 255).
-/

namespace Sys2Proof

/-- A reserved register number is 7 to 255 (10_state.md R22). -/
def Reg.wf : Reg → Bool
  | .status => true
  | .cnt => true
  | .rcode => true
  | .plen => true
  | .csum => true
  | .len => true
  | .flags => true
  | .reserved n => decide (7 ≤ n.toNat)

/-- A well-formed command. -/
def Instr.wf : Instr → Bool
  | .nop => true
  | .clr => true
  | .push _ => true
  | .val _ => true
  | .rdp _ => true
  | .rdb _ => true
  | .rdr r => r.wf

end Sys2Proof
end

