-- ==== Sys2Proof/Decode.lean ====
section
/-!
DEFINITION. Decoding a 16-bit command word, total on all 65536 words and rejecting by name
(30_encoding.md R62 to R67), the encoder, and the opcode map of 30_encoding.md R65 as data.
-/

namespace Sys2Proof

/-! ### Fields of a command word (30_encoding.md R62) -/

/-- `op = cw[15:12]`. -/
def opField (cw : CommandWord) : BitVec 4 := cw.extractLsb' 12 4

/-- `rsv = cw[11:8]`. -/
def rsvField (cw : CommandWord) : BitVec 4 := cw.extractLsb' 8 4

/-- `arg = cw[7:0]`. -/
def argField (cw : CommandWord) : Byte := cw.extractLsb' 0 8

/-! ### Register numbers (10_state.md R22) -/

/-- The register an `RDR` argument names. -/
def Reg.ofNumber (n : Byte) : Reg :=
  match n.toNat with
  | 0 => .status
  | 1 => .cnt
  | 2 => .rcode
  | 3 => .plen
  | 4 => .csum
  | 5 => .len
  | 6 => .flags
  | _ => .reserved n

/-- The number of a register. -/
def Reg.number : Reg → Byte
  | .status => 0
  | .cnt => 1
  | .rcode => 2
  | .plen => 3
  | .csum => 4
  | .len => 5
  | .flags => 6
  | .reserved n => n

/-! ### Decoding -/

/-- Why a command word is illegal (30_encoding.md R66). Each is answered with `E_ILL`. -/
inductive DecodeError where
  /-- `op` is 0x7 to 0xF. -/
  | reservedOp
  /-- `rsv` is not 0. -/
  | reservedBits
  /-- `NOP` or `CLR` with `arg` not 0x00. -/
  | operandNotZero
  deriving DecidableEq, Repr

/-- A command that takes no operand (`NOP`, `CLR`): `arg` must be 0x00. -/
def noOperand (i : Instr) (arg : Byte) : Except DecodeError Instr :=
  if arg = 0x00#8 then .ok i else .error .operandNotZero

/-- The command an operation and its argument name (30_encoding.md R65). -/
def decodeOp (op : BitVec 4) (arg : Byte) : Except DecodeError Instr :=
  match op.toNat with
  | 0x0 => noOperand .nop arg
  | 0x1 => noOperand .clr arg
  | 0x2 => .ok (.push arg)
  | 0x3 => .ok (.val arg)
  | 0x4 => .ok (.rdp arg)
  | 0x5 => .ok (.rdb arg)
  | 0x6 => .ok (.rdr (Reg.ofNumber arg))
  | _ => .error .reservedOp

/-- Decode a command word (30_encoding.md R62, R65, R66). -/
def decode (cw : CommandWord) : Except DecodeError Instr :=
  if rsvField cw = 0x0#4 then decodeOp (opField cw) (argField cw) else .error .reservedBits

/-- The command word whose bits the opcode table numbers `nbits - 1` to 0: one 16-bit word, higher bits 0.
A command is one whole word, so no byte order enters (20_memory.md R35). -/
def tableWord (nbits w : Nat) : CommandWord := BitVec.ofNat 16 (w % 2 ^ nbits)

/-- The command the decoder reads from a word of the opcode table. -/
def decodeTableWord (nbits w : Nat) : Option Instr := (decode (tableWord nbits w)).toOption

/-! ### Encoding (30_encoding.md R65, R69) -/

/-- `op` of a command. -/
def Instr.op : Instr → BitVec 4
  | .nop => 0x0
  | .clr => 0x1
  | .push _ => 0x2
  | .val _ => 0x3
  | .rdp _ => 0x4
  | .rdb _ => 0x5
  | .rdr _ => 0x6

/-- `arg` of a command. -/
def Instr.arg : Instr → Byte
  | .nop => 0x00
  | .clr => 0x00
  | .push b => b
  | .val e => e
  | .rdp i => i
  | .rdb i => i
  | .rdr r => r.number

/-- The word for a command: `(op << 12) or arg` (30_encoding.md R69). -/
def encode (i : Instr) : CommandWord := (i.op.setWidth 16 <<< 12) ||| i.arg.setWidth 16

/-! ### The opcode map as data (30_encoding.md R65) -/

/-- A row of the opcode map: a word `cw` selects it when `cw and mask = match`. -/
structure OpRow where
  mnemonic : String
  matchBits : CommandWord
  mask : CommandWord
  deriving DecidableEq, Repr

/-- The seven rows of 30_encoding.md R65. -/
def opcodeMap : List OpRow :=
  [ ⟨"NOP", 0x0000, 0xFFFF⟩,
    ⟨"CLR", 0x1000, 0xFFFF⟩,
    ⟨"PUSH", 0x2000, 0xFF00⟩,
    ⟨"VAL", 0x3000, 0xFF00⟩,
    ⟨"RDP", 0x4000, 0xFF00⟩,
    ⟨"RDB", 0x5000, 0xFF00⟩,
    ⟨"RDR", 0x6000, 0xFF00⟩ ]

/-- Whether a word selects a row. -/
def OpRow.selects (r : OpRow) (cw : CommandWord) : Bool := cw &&& r.mask == r.matchBits

/-- The mnemonic of a command, as the opcode map spells it. -/
def Instr.mnemonic : Instr → String
  | .nop => "NOP"
  | .clr => "CLR"
  | .push _ => "PUSH"
  | .val _ => "VAL"
  | .rdp _ => "RDP"
  | .rdb _ => "RDB"
  | .rdr _ => "RDR"

end Sys2Proof
end

