-- ==== Sys2Proof/Config.lean ====
section
/-!
DEFINITION. The constants of the block (00_scope.md R4, 10_state.md R20): a configuration record, and
the values this hardware fixes for it. They are not state: no command reads or writes them.
-/

namespace Sys2Proof

/-- The configuration record of 00_scope.md R4. -/
structure Config where
  /-- `RH0`, first byte of the reply header. -/
  rh0 : Byte
  /-- `RH1`, second byte of the reply header. -/
  rh1 : Byte
  /-- `CH0`, first byte of the command header. -/
  ch0 : Byte
  /-- `CH1`, second byte of the command header. -/
  ch1 : Byte
  /-- `MARKER`, the reply marker. -/
  marker : Byte
  /-- `RC_SUCCESS`, the Success result code. -/
  rcSuccess : Byte
  /-- `RW_READ`, the read value of a command frame's `read_or_write` byte. -/
  rwRead : Byte
  /-- `RW_WRITE`, the write value of that byte. -/
  rwWrite : Byte
  /-- `MAXF`, the capacity of the frame buffer in bytes. -/
  maxf : Nat
  deriving DecidableEq, Repr

/-- The write value of the `read_or_write` byte, which no source gives (00_scope.md R4: OPEN; 92 D11;
93 U4). A free value: it has no body, so nothing can be proved of it. DESIGN CHOICE, safe: log entry 6. -/
opaque openRwWrite : Byte

/-- FPCV's constants (00_scope.md R4; 92 D9). -/
def fpcv : Config where
  rh0 := 0x6F
  rh1 := 0x37
  ch0 := 0x37
  ch1 := 0x51
  marker := 0x02
  rcSuccess := 0x00
  rwRead := 0xEB
  rwWrite := openRwWrite
  maxf := 64

/-- `OVERHEAD`: header 2, length 1, checksum 1 (00_scope.md R4). -/
def overhead : Nat := 4

/-- `FIXED_BODY`: marker, result code, opcode (00_scope.md R4; conflict C2: three). -/
def fixedBody : Nat := 3

/-- `PAYLOAD_OFF`: the index of the first data byte (00_scope.md R4). -/
def payloadOff : Nat := 2 + 1 + fixedBody

/-- `MAXL`: the largest declared length a full buffer can satisfy (00_scope.md R4). -/
def maxl : Nat := fpcv.maxf - overhead

/-- `MAXP`: the largest payload (00_scope.md R4). -/
def maxp : Nat := maxl - fixedBody

end Sys2Proof
end

