-- ==== Sys2Proof/Machine/State.lean ====
section
/-!
DEFINITION. The state of FPCV as plain data (10_state.md R10), the host port beside it (log entry 1),
the reasons a step can stop, and the state right after reset (10_state.md R25).
-/

namespace Sys2Proof.Machine

/-- The outcome of the last validation (10_state.md R13): exactly eight values (93 U13). -/
inductive Status where
  /-- 0: no validation result is held. -/
  | stNone
  /-- 1: all six checks passed. -/
  | stOk
  /-- 2: HeaderError. -/
  | stHeader
  /-- 3: LengthError. -/
  | stLength
  /-- 4: FormatError. -/
  | stFormat
  /-- 5: ResultCodeError. -/
  | stResult
  /-- 6: CommandError. -/
  | stCommand
  /-- 7: ChecksumError. -/
  | stChecksum
  deriving DecidableEq, Repr

/-- The frame buffer as the cells that hold a value: pairs of an index and its byte, indices strictly
rising (10_state.md R11, R27; 20_memory.md R30). An index that is not listed holds no value. DESIGN
CHOICE, safe: log entry 3. -/
abbrev Memory := List Host.Cell

/-- What the host does to the block, one event a step (20_memory.md R45; 70_reset_and_hazards.md R160).
DESIGN CHOICE, safe: log entry 1. -/
inductive HostEvent where
  /-- The host issues a command word: any of the 65536 (70_reset_and_hazards.md R171). -/
  | command (cw : CommandWord)
  /-- The reset input, between two commands (70_reset_and_hazards.md R160). -/
  | reset
  deriving DecidableEq, Repr

/-- The six state elements of 10_state.md R10, and the host port. -/
structure State where
  /-- `BUF` (R11). -/
  buf : Memory
  /-- `CNT` (R12). -/
  cnt : BitVec 7
  /-- `STATUS` (R13). -/
  status : Status
  /-- `RCODE` (R14). -/
  rcode : Byte
  /-- `PLEN` (R15). -/
  plen : BitVec 6
  /-- `OVF` (R16). -/
  ovf : Bool
  /-- The host's events that the block has not taken yet, the next one first (the model's own field). -/
  inbox : List HostEvent
  /-- The response word of the last transaction, if it returned one (the model's own field;
  30_encoding.md R64; a reset returns none, 70_reset_and_hazards.md R160). -/
  rsp : Option ResponseWord
  deriving DecidableEq, Repr

/-- Why the machine stops with a fault. -/
inductive Fault where
  /-- Raised by `VAL`, `RDP`, `RDB` and `RDR` where they read `BUF` at an index that holds no value although
  their own bound allowed it. No state a run reaches has such an index, since `BUF` then lists exactly the
  indices below `CNT`. Safe: the model stops where the spec gives no byte (10_state.md R11: a model must
  not give it one). Log entry 4. -/
  | noValue
  deriving DecidableEq, Repr

/-- Why the machine gives a command no meaning. -/
inductive Refusal where
  /-- Raised by `exec`'s arm of a command that has no meaning yet. Safe: the model stops. No arm raises it. -/
  | notModelled (mnemonic : String)
  deriving DecidableEq, Repr

/-- The state right after reset (10_state.md R25; 70_reset_and_hazards.md R160). The host has issued
nothing yet, so the block waits for the first command word. -/
def State.reset : State where
  buf := []
  cnt := 0
  status := .stNone
  rcode := 0x00
  plen := 0
  ovf := false
  inbox := []
  rsp := none

end Sys2Proof.Machine
end

