-- ==== Sys2Proof/Machine/Ops.lean ====
section
/-!
DEFINITION. The named operations over the frame buffer, the registers and the response word, and the
checksum function `Xor8`. The block has no trap to take and none to return from (60_exceptions.md R150,
R152, R154): what its abnormal outcomes share is `refuse(E)` (00_scope.md R7), here `Answer.refuse`.
-/

namespace Sys2Proof.Machine

/-! ### The frame buffer (20_memory.md R30; 10_state.md R11, R27) -/

/-- What an index that is not listed reads as: no value (10_state.md R11). -/
def Memory.unlisted : Option Byte := none

/-- `BUF[i]`: the byte at an index, if that index holds a value (00_scope.md R7). -/
def Memory.read (m : Memory) (i : Nat) : Option Byte :=
  match m with
  | [] => Memory.unlisted
  | c :: rest => if c.1 = i then some c.2 else Memory.read rest i

/-- `BUF[i] <- v`, in the canonical form (00_scope.md R7). -/
def Memory.write (m : Memory) (i : Nat) (v : Byte) : Memory :=
  match m with
  | [] => [(i, v)]
  | c :: rest =>
    if i < c.1 then (i, v) :: c :: rest
    else if i = c.1 then (i, v) :: rest
    else c :: Memory.write rest i v

/-- The canonical form: indices strictly rising, none outside the 64 locations of 20_memory.md R30, and no
cell equal to what an unlisted index reads as. -/
abbrev Memory.wf (m : Memory) : Prop :=
  (m.map Prod.fst).Pairwise (· < ·) ∧ (∀ c ∈ m, c.1 < fpcv.maxf) ∧ ∀ c ∈ m, some c.2 ≠ Memory.unlisted

/-- `CNT` as the natural number every rule computes with (00_scope.md R6). -/
def State.count (s : State) : Nat := s.cnt.toNat

/-- `PLEN` as a natural number (00_scope.md R6). -/
def State.payloadLen (s : State) : Nat := s.plen.toNat

/-- `BUF[i]` of a state. -/
def State.load (s : State) (i : Nat) : Option Byte := s.buf.read i

/-! ### Writes of state elements -/

/-- The result registers as a successful `PUSH` leaves them (40_intake.md R82, R84). -/
def State.clearResults (s : State) : State :=
  { s with status := .stNone, rcode := 0x00, plen := 0 }

/-- `BUF[CNT] <- b; CNT <- CNT + 1` (40_intake.md R82). -/
def State.append (s : State) (b : Byte) : State :=
  { s with buf := s.buf.write s.count b, cnt := BitVec.ofNat 7 (s.count + 1) }

/-- `OVF <- 1` (40_intake.md R83). -/
def State.setOvf (s : State) : State := { s with ovf := true }

/-- The effect `CLR` and reset share on the six state elements (40_intake.md R81; 70_reset_and_hazards.md
R160). With `CNT = 0` no byte of `BUF` holds a value, so no cell is listed (log entry 3). -/
def State.clearBlock (s : State) : State :=
  { s with buf := [], cnt := 0, status := .stNone, rcode := 0x00, plen := 0, ovf := false }

/-! ### The response word (30_encoding.md R64) -/

/-- `v` zero-extended to 16 bits (00_scope.md R7). -/
def zext16 {w : Nat} (v : BitVec w) : BitVec 16 := v.setWidth 16

/-- The refusal reasons (30_encoding.md R64; 60_exceptions.md R148). -/
inductive RefusalCode where
  /-- 0x01: illegal command word. -/
  | eIll
  /-- 0x02: buffer full. -/
  | eFull
  /-- 0x03: index out of range or no payload to read. -/
  | eIdx
  /-- 0x04: reserved register number. -/
  | eReg
  /-- 0x05: the register has no value in the present state. -/
  | eNoval
  deriving DecidableEq, Repr

/-- The number of a refusal reason (30_encoding.md R64). -/
def RefusalCode.code : RefusalCode → Byte
  | .eIll => 0x01
  | .eFull => 0x02
  | .eIdx => 0x03
  | .eReg => 0x04
  | .eNoval => 0x05

/-- What a command answers: it was carried out with a value, or it was refused (30_encoding.md R64). -/
inductive Answer where
  /-- `ERR = 0`. -/
  | value (v : Byte)
  /-- `ERR = 1`: `refuse(E)` of 00_scope.md R7. -/
  | refuse (e : RefusalCode)
  deriving DecidableEq, Repr

/-- The response word of an answer (30_encoding.md R64; 00_scope.md R7). -/
def Answer.word : Answer → ResponseWord
  | .value v => zext16 v
  | .refuse e => 0x8000#16 ||| zext16 e.code

/-- `rsp <- w`: the command returns its one response word. -/
def State.respond (s : State) (a : Answer) : State := { s with rsp := some a.word }

/-- End a reading command with its answer; where it had to read a byte that holds no value there is no
answer, and the machine stops (log entry 4). -/
def State.answer (s : State) (a : Option Answer) : Host.Outcome State Fault Refusal :=
  match a with
  | some a => .next (s.respond a)
  | none => .fault .noValue

/-! ### Status codes and verdicts -/

/-- The 4-bit code of a status (10_state.md R13). -/
def Status.code : Status → BitVec 4
  | .stNone => 0
  | .stOk => 1
  | .stHeader => 2
  | .stLength => 3
  | .stFormat => 4
  | .stResult => 5
  | .stCommand => 6
  | .stChecksum => 7

/-- The result triple of `DecodeReply` (00_scope.md R7): status code, result code, payload length. -/
structure Verdict where
  status : Status
  rcode : Byte
  plen : Nat
  deriving DecidableEq, Repr

/-- `STATUS <- st; RCODE <- rc; PLEN <- pl`: all that a verdict writes (41_validate.md R106;
60_exceptions.md R150). -/
def State.writeVerdict (s : State) (v : Verdict) : State :=
  { s with status := v.status, rcode := v.rcode, plen := BitVec.ofNat 6 v.plen }

/-! ### The checksum function -/

/-- `Xor8(B, a, b)`: the 8-bit XOR of `B[a..b)`, 0x00 for an empty range (41_validate.md R90). The buffer
is given by its read; there is no result where an index in range holds no value. -/
def xor8 (B : Nat → Option Byte) (a : Nat) : Nat → Option Byte
  | 0 => some 0x00
  | b + 1 =>
    if b + 1 ≤ a then some 0x00
    else do
      let x ← xor8 B a b
      let y ← B b
      return x ^^^ y

end Sys2Proof.Machine
end

