-- ==== Sys2Proof/Machine/Flags.lean ====
section
/-!
DEFINITION. The parser flags and the `FLAGS` register (10_state.md R16, R19, R24; 42_readout.md R129).
`COMPLETE` and `HDROK` are computed from `BUF` and `CNT` at the time of the read; a buffer is given by
its read `B` and the number `n` of bytes it holds.
-/

namespace Sys2Proof.Machine

/-- `HDROK`: `n >= 2` and `B[0] = RH0` and `B[1] = RH1` (10_state.md R19). -/
def hdrok (B : Nat → Option Byte) (n : Nat) : Option Bool :=
  if n < 2 then some false
  else do
    let b0 ← B 0
    let b1 ← B 1
    return b0 == fpcv.rh0 && b1 == fpcv.rh1

/-- `COMPLETE`: `n >= 3` and `B[2] >= 3` and `n = B[2] + 4`, in natural numbers (10_state.md R19). -/
def complete (B : Nat → Option Byte) (n : Nat) : Option Bool :=
  if n < 3 then some false
  else do
    let l ← B 2
    return decide (fixedBody ≤ l.toNat) && decide (n = l.toNat + overhead)

/-- `FLAGS = {HDROK, COMPLETE, OVF}`: `OVF` is bit 0 (42_readout.md R129; 10_state.md R22). -/
def flagsWord (hdrok complete ovf : Bool) : BitVec 3 :=
  BitVec.ofBool hdrok ++ BitVec.ofBool complete ++ BitVec.ofBool ovf

/-- `FLAGS` of a state. -/
def State.flags (s : State) : Option (BitVec 3) := do
  let h ← hdrok s.load s.count
  let c ← complete s.load s.count
  return flagsWord h c s.ovf

end Sys2Proof.Machine
end

