-- ==== Sys2Proof/Machine/Operands.lean ====
section
/-!
DEFINITION. The operand forms: the two indices (30_encoding.md R63; 42_readout.md R131) and the numbered
registers and views of `RDR` (10_state.md R22; 42_readout.md R122 to R130).
-/

namespace Sys2Proof.Machine

/-- The effective index of `RDB i`: `i`, absolute and unsigned (42_readout.md R121). -/
def bufferIndex (i : Byte) : Nat := i.toNat

/-- The effective index of `RDP i`: `6 + i` in natural numbers, never wrapped (42_readout.md R120;
30_encoding.md R63). -/
def payloadIndex (i : Byte) : Nat := payloadOff + i.toNat

/-- `CSUM = Xor8(BUF, 0, CNT)` (10_state.md R17). -/
def State.csum (s : State) : Option Byte := xor8 s.load 0 s.count

/-- What `RDR` answers for each register or view (42_readout.md R122). There is no answer only where a
view needs a byte of `BUF` that holds no value (log entry 4). -/
def State.readReg (s : State) : Reg → Option Answer
  | .status => some (.value (s.status.code.setWidth 8))
  | .cnt => some (.value (s.cnt.setWidth 8))
  | .rcode => some (.value s.rcode)
  | .plen => some (.value (s.plen.setWidth 8))
  | .csum => s.csum.map Answer.value
  | .len => if 3 ≤ s.count then (s.load 2).map Answer.value else some (.refuse .eNoval)
  | .flags => s.flags.map fun f => .value (f.setWidth 8)
  | .reserved _ => some (.refuse .eReg)

end Sys2Proof.Machine
end

