-- ==== Sys2Proof/Machine/Intake.lean ====
section
/-!
DEFINITION. The intake commands `NOP`, `CLR` and `PUSH` (spec 40_intake.md).
-/

namespace Sys2Proof.Machine

/-- `NOP` (40_intake.md R80): the response 0x0000 and nothing else. -/
def execNop (s : State) : Host.Outcome State Fault Refusal :=
  .next (s.respond (.value 0x00))

/-- `CLR` (40_intake.md R81): the reset state, and the response 0x0000. -/
def execClr (s : State) : Host.Outcome State Fault Refusal :=
  .next (s.clearBlock.respond (.value 0x00))

/-- `PUSH b`, buffer not full (40_intake.md R82, R84): append the byte, drop every result, answer the new
count. -/
def State.pushByte (s : State) (b : Byte) : State :=
  let t := (s.append b).clearResults
  t.respond (.value (t.cnt.setWidth 8))

/-- `PUSH b`, buffer full (40_intake.md R83): the byte is dropped, `OVF` is set. -/
def State.pushFull (s : State) : State := s.setOvf.respond (.refuse .eFull)

/-- `PUSH b` (40_intake.md R82, R83). Intake does not look at the byte (R85). -/
def execPush (b : Byte) (s : State) : Host.Outcome State Fault Refusal :=
  if s.count < fpcv.maxf then .next (s.pushByte b) else .next s.pushFull

end Sys2Proof.Machine
end

