-- ==== Sys2Proof/Machine/ReadOut.lean ====
section
/-!
DEFINITION. The read-out commands `RDP`, `RDB` and `RDR` (spec 42_readout.md). None changes the block's
state, whether carried out or refused (20_memory.md R38).
-/

namespace Sys2Proof.Machine

/-- `RDP i` (42_readout.md R120): byte `i` of the payload of a validated reply. -/
def execRdp (i : Byte) (s : State) : Host.Outcome State Fault Refusal :=
  if s.status = .stOk ∧ i.toNat < s.payloadLen then
    s.answer ((s.load (payloadIndex i)).map Answer.value)
  else s.answer (some (.refuse .eIdx))

/-- `RDB i` (42_readout.md R121): raw buffer byte `i`, whatever the status. -/
def execRdb (i : Byte) (s : State) : Host.Outcome State Fault Refusal :=
  if bufferIndex i < s.count then
    s.answer ((s.load (bufferIndex i)).map Answer.value)
  else s.answer (some (.refuse .eIdx))

/-- `RDR r` (42_readout.md R122): a register or view. -/
def execRdr (r : Reg) (s : State) : Host.Outcome State Fault Refusal :=
  s.answer (s.readReg r)

end Sys2Proof.Machine
end

