-- ==== Sys2Proof/Machine/Validate.lean ====
section
/-!
DEFINITION. `DecodeReply`, the six checks in the document's order (spec 41_validate.md R92 to R105), and
the `VAL` command that runs it on the buffer (R106).
-/

namespace Sys2Proof.Machine

/-- A validation error that records nothing but its status (60_exceptions.md R140). -/
def Verdict.error (st : Status) : Verdict := ⟨st, 0x00, 0⟩

/-- Checks 3 to 6 and step 7, once checks 1 and 2 have passed with declared length `l` (41_validate.md
R98 to R101, R103). -/
def decodeBody (e : Byte) (B : Nat → Option Byte) (l : Nat) : Option Verdict := do
  let marker ← B 3
  if marker ≠ fpcv.marker then return .error .stFormat
  let rc ← B 4
  if rc ≠ fpcv.rcSuccess then return ⟨.stResult, rc, 0⟩
  let opcode ← B 5
  if opcode ≠ e then return .error .stCommand
  let sum ← xor8 B 0 (l + 3)
  let trailing ← B (l + 3)
  if sum ≠ trailing then return .error .stChecksum
  return ⟨.stOk, 0x00, l - fixedBody⟩

/-- `DecodeReply(e, B, n)` (41_validate.md R92): fails fast at the first check that fails. The buffer is
given by its read; each byte is read only where the rules before it made it a byte the buffer holds, and
there is no verdict where such a byte holds no value (log entry 4). -/
def decodeReply (e : Byte) (B : Nat → Option Byte) (n : Nat) : Option Verdict :=
  if n < 2 then some (.error .stHeader)
  else do
    let b0 ← B 0
    if b0 ≠ fpcv.rh0 then return .error .stHeader
    let b1 ← B 1
    if b1 ≠ fpcv.rh1 then return .error .stHeader
    if n < 3 then return .error .stLength
    let l ← B 2
    if l.toNat + overhead ≠ n then return .error .stLength
    if l.toNat < fixedBody then return .error .stLength
    decodeBody e B l.toNat

/-- `VAL e` (41_validate.md R106): judge the buffer, write the three result registers, answer the status.
It is carried out in every state, whatever the verdict. -/
def execVal (e : Byte) (s : State) : Host.Outcome State Fault Refusal :=
  match decodeReply e s.load s.count with
  | some v => .next ((s.writeVerdict v).respond (.value (v.status.code.setWidth 8)))
  | none => .fault .noValue

end Sys2Proof.Machine
end

