-- ==== Sys2Proof/Machine/Dispatch.lean ====
section
/-!
DEFINITION. One arm per command (30_encoding.md R65), each a direct call of its meaning.
-/

namespace Sys2Proof.Machine

def exec (i : Instr) (s : State) : Host.Outcome State Fault Refusal :=
  match i with
  | .nop => Sys2Proof.Machine.execNop s
  | .clr => Sys2Proof.Machine.execClr s
  | .push b => Sys2Proof.Machine.execPush b s
  | .val e => Sys2Proof.Machine.execVal e s
  | .rdp k => Sys2Proof.Machine.execRdp k s
  | .rdb k => Sys2Proof.Machine.execRdb k s
  | .rdr r => Sys2Proof.Machine.execRdr r s

end Sys2Proof.Machine
end

