-- ==== Sys2Proof/Machine/Port.lean ====
section
/-!
DEFINITION. The host port: what one command word does (20_memory.md R45), legal or illegal
(30_encoding.md R66), and what a reset does (70_reset_and_hazards.md R160).
-/

namespace Sys2Proof.Machine

/-- An illegal command word is refused with `E_ILL` and changes no state (30_encoding.md R66). -/
def execIllegal (s : State) : Host.Outcome State Fault Refusal :=
  .next (s.respond (.refuse .eIll))

/-- One transaction: the block takes a command word and returns its response (20_memory.md R37, R45). -/
def perform (cw : CommandWord) (s : State) : Host.Outcome State Fault Refusal :=
  match decode cw with
  | .ok i => exec i s
  | .error _ => execIllegal s

/-- A reset: exactly the effect of `CLR`, and no response word (70_reset_and_hazards.md R160). -/
def resetEvent (s : State) : State := { s.clearBlock with rsp := none }

/-- The state after the block has taken its next event off the port: `rest` is what the host does later. -/
def State.taken (s : State) (rest : List HostEvent) : State := { s with inbox := rest }

/-- The host issues the command word `cw` next. -/
def State.issue (s : State) (cw : CommandWord) : State := { s with inbox := .command cw :: s.inbox }

/-- What the block does for one event of the host. -/
def handle (ev : HostEvent) (s : State) : Host.Outcome State Fault Refusal :=
  match ev with
  | .command cw => perform cw s
  | .reset => .next (resetEvent s)

end Sys2Proof.Machine
end

