-- ==== Sys2Proof/Machine/Step.lean ====
section
/-!
DEFINITION. One step of the machine: the block takes the host's next event (20_memory.md R40, R45). While
the host issues nothing the block is idle and nothing changes (60_exceptions.md R157;
70_reset_and_hazards.md R171; log entry 2).
-/

namespace Sys2Proof.Machine

/-- One step. -/
def step (s : State) : Host.Outcome State Fault Refusal :=
  match s.inbox with
  | [] => .next s
  | ev :: rest => handle ev (s.taken rest)

/-- The state in which the host's next command is the word whose bits the opcode table numbers
`nbits - 1` to 0 (log entry 5). -/
def State.withFetchWord (s : State) (nbits w : Nat) : State := s.issue (tableWord nbits w)

end Sys2Proof.Machine
end

