-- ==== Sys2Proof/Machine/Assembly.lean ====
section
/-!
DEFINITION. The assembler syntax (30_encoding.md R69) and the pseudo-instructions (R70). What the syntax
leaves open (spaces, the case of hexadecimal digits) is log entry 8.
-/

namespace Sys2Proof.Machine

/-! ### Pseudo-instructions (30_encoding.md R70) -/

/-- A pseudo-instruction. -/
inductive Pseudo where
  /-- `FRAME b0 ... bk`: the bytes of one transport read. -/
  | frame (bytes : List Byte)
  /-- `DECODE e, b0 ... bk`: the document's `decode_reply`. -/
  | decodeReply (e : Byte) (bytes : List Byte)
  /-- `CHK`: read the running XOR. -/
  | chk
  deriving DecidableEq, Repr

/-- The commands a pseudo-instruction stands for. -/
def Pseudo.expand : Pseudo → List Instr
  | .frame bytes => bytes.map Instr.push
  | .decodeReply e bytes => Instr.clr :: (bytes.map Instr.push ++ [Instr.val e])
  | .chk => [Instr.rdr .csum]

/-! ### Assembly lines (30_encoding.md R69) -/

/-- A decimal digit. -/
def decDigit (c : Char) : Option Nat :=
  if '0' ≤ c ∧ c ≤ '9' then some (c.toNat - '0'.toNat) else none

/-- A hexadecimal digit. -/
def hexDigit (c : Char) : Option Nat :=
  if 'A' ≤ c ∧ c ≤ 'F' then some (c.toNat - 'A'.toNat + 10)
  else if 'a' ≤ c ∧ c ≤ 'f' then some (c.toNat - 'a'.toNat + 10)
  else decDigit c

/-- The digits of a number in a base, most significant first; `acc` is the number read so far. -/
def readDigits (digit : Char → Option Nat) (base acc : Nat) : List Char → Option Nat
  | [] => some acc
  | c :: cs => do
    let d ← digit c
    readDigits digit base (base * acc + d) cs

/-- A number: decimal, or hexadecimal after `0x`. -/
def readNumber : List Char → Option Nat
  | [] => none
  | '0' :: 'x' :: c :: cs => readDigits hexDigit 16 0 (c :: cs)
  | c :: cs => readDigits decDigit 10 0 (c :: cs)

/-- An operand 0 to 255. -/
def readByte (cs : List Char) : Option Byte := do
  let n ← readNumber cs
  if n < 256 then some (BitVec.ofNat 8 n) else none

/-- A register operand: a name, or a number 0 to 255. -/
def readReg (cs : List Char) : Option Reg :=
  if cs = "STATUS".toList then some .status
  else if cs = "CNT".toList then some .cnt
  else if cs = "RCODE".toList then some .rcode
  else if cs = "PLEN".toList then some .plen
  else if cs = "CSUM".toList then some .csum
  else if cs = "LEN".toList then some .len
  else if cs = "FLAGS".toList then some .flags
  else (readByte cs).map Reg.ofNumber

/-- The words of a line, in which spaces separate and `;` starts a comment; `word` is the word read so far,
last character first. -/
def splitLine (word : List Char) : List Char → List (List Char)
  | [] => if word = [] then [] else [word.reverse]
  | ';' :: _ => if word = [] then [] else [word.reverse]
  | ' ' :: cs => if word = [] then splitLine [] cs else word.reverse :: splitLine [] cs
  | c :: cs => splitLine (c :: word) cs

/-- A mnemonic that takes no operand. -/
def readPlain (mnemonic : List Char) : Option Instr :=
  if mnemonic = "NOP".toList then some .nop
  else if mnemonic = "CLR".toList then some .clr
  else none

/-- A mnemonic and its operand. -/
def readWithOperand (mnemonic operand : List Char) : Option Instr :=
  if mnemonic = "PUSH".toList then (readByte operand).map Instr.push
  else if mnemonic = "VAL".toList then (readByte operand).map Instr.val
  else if mnemonic = "RDP".toList then (readByte operand).map Instr.rdp
  else if mnemonic = "RDB".toList then (readByte operand).map Instr.rdb
  else if mnemonic = "RDR".toList then (readReg operand).map Instr.rdr
  else none

/-- The command an assembly line writes. -/
def parseLine (line : List Char) : Option Instr :=
  match splitLine [] line with
  | [mnemonic] => readPlain mnemonic
  | [mnemonic, operand] => readWithOperand mnemonic operand
  | _ => none

/-- The command word of an assembly line: `(op << 12) or arg`. -/
def assemble (line : List Char) : Option CommandWord := (parseLine line).map encode

end Sys2Proof.Machine
end

