-- ==== Sys2Proof/Machine/Frames.lean ====
section
/-!
DEFINITION. The wire frames (spec 30_encoding.md part A): the reference functions `MakeReply` (R59) and
`EncodeCommand` (R57, R58), and the map of a reply frame (20_memory.md R31, R32). The block computes
none of them; the laws about `VAL` and `CSUM` are stated through them.
-/

namespace Sys2Proof.Machine

/-- A byte string as a buffer: the byte at each index below its length. -/
def bytesOf (F : List Byte) : Nat → Option Byte := fun i => F[i]?

/-- A frame's checksum byte is the XOR of every byte before it (30_encoding.md R54). -/
def appendChecksum (F : List Byte) : Option (List Byte) := do
  let c ← xor8 (bytesOf F) 0 F.length
  return F ++ [c]

/-- `MakeReply(rc, o, P)` (30_encoding.md R59), defined for at most 252 data bytes, so that the length byte
holds `3 + p`. -/
def makeReply (rc o : Byte) (P : List Byte) : Option (List Byte) :=
  if P.length ≤ 252 then
    appendChecksum
      ([fpcv.rh0, fpcv.rh1, BitVec.ofNat 8 (3 + P.length), fpcv.marker, rc, o] ++ P)
  else none

/-- `EncodeCommand(rw, o, P)` (30_encoding.md R57), defined for at most 253 data bytes; it has no value
beyond (30_encoding.md R58; 93 U5). -/
def encodeCommand (rw o : Byte) (P : List Byte) : Option (List Byte) :=
  if P.length ≤ 253 then
    appendChecksum ([fpcv.ch0, fpcv.ch1, BitVec.ofNat 8 (2 + P.length), rw, o] ++ P)
  else none

/-- The direction of a command frame (30_encoding.md R57). -/
inductive Direction where
  | read
  | write
  deriving DecidableEq, Repr

/-- The `read_or_write` byte of a direction (30_encoding.md R52): for a write the OPEN value (log entry 6). -/
def Direction.rw : Direction → Byte
  | .read => fpcv.rwRead
  | .write => fpcv.rwWrite

/-- The fields of a reply frame (20_memory.md R32). -/
inductive Field where
  | hdr
  | len
  | marker
  | result
  | opcode
  | data
  | csum
  deriving DecidableEq, Repr

/-- `Field(i, L)` (20_memory.md R32): the field index `i` of a frame with declared length `l` belongs to.
There is no field outside the frame, and none where the declared length does not cover the three fixed
body bytes (log entry 9). -/
def fieldOf (i l : Nat) : Option Field :=
  if l < fixedBody then none
  else if i = 0 ∨ i = 1 then some .hdr
  else if i = 2 then some .len
  else if i = 3 then some .marker
  else if i = 4 then some .result
  else if i = 5 then some .opcode
  else if i ≤ l + 2 then some .data
  else if i = l + 3 then some .csum
  else none

/-- The body: the `L` bytes after the length byte (20_memory.md R32). -/
def Field.inBody : Field → Bool
  | .hdr => false
  | .len => false
  | .marker => true
  | .result => true
  | .opcode => true
  | .data => true
  | .csum => false

/-- What the checksum covers: header, length and body (20_memory.md R32). -/
def Field.covered : Field → Bool
  | .hdr => true
  | .len => true
  | .marker => true
  | .result => true
  | .opcode => true
  | .data => true
  | .csum => false

end Sys2Proof.Machine
end

