-- ==== Sys2Proof/Safety.lean ====
section
/-!
DEFINITION. The terms the claims use: what a buffer holds, the invariant of the block (10_state.md R26),
sequences of events, and what of a state the host can see.
-/

namespace Sys2Proof.Machine

/-- `BUF[0..CNT)` is the byte string `bs` (10_state.md R11). -/
def State.Holds (s : State) (bs : List Byte) : Prop :=
  s.count = bs.length ∧ ∀ i, i < bs.length → s.load i = bs[i]?

/-- Two states whose six elements and whose pending events are the same: they differ in the response word
at most (10_state.md R10, R21). -/
def State.SameBlock (s t : State) : Prop :=
  t.buf = s.buf ∧ t.cnt = s.cnt ∧ t.status = s.status ∧ t.rcode = s.rcode ∧ t.plen = s.plen ∧
    t.ovf = s.ovf ∧ t.inbox = s.inbox

/-- The invariant of the block, from which 10_state.md R26 follows: `BUF` lists exactly the indices below
`CNT`, `CNT` is at most 64, no result is held under `ST_NONE`, a held result is the verdict on the present
contents for some expected opcode (R26 item 8), and `OVF` is set only on a full buffer. -/
structure State.Inv (s : State) : Prop where
  count_le : s.count ≤ fpcv.maxf
  filled : s.buf.map Prod.fst = List.range s.count
  cleared : s.status = .stNone → s.rcode = 0x00 ∧ s.plen = 0
  judged : s.status ≠ .stNone →
    ∃ e, decodeReply e s.load s.count = some ⟨s.status, s.rcode, s.payloadLen⟩
  overflowed : s.ovf = true → s.count = fpcv.maxf

/-- The outcome of `k` after an outcome: a stop stays a stop. -/
def andThen (o : Host.Outcome State Fault Refusal) (k : State → Host.Outcome State Fault Refusal) :
    Host.Outcome State Fault Refusal :=
  match o with
  | .next s => k s
  | .fault r => .fault r
  | .refused r => .refused r

/-- The fold of the per-event rules over a sequence of events (20_memory.md R40; 70_reset_and_hazards.md
R172). -/
def foldEvents : List HostEvent → State → Host.Outcome State Fault Refusal
  | [], s => .next s
  | ev :: evs, s => andThen (handle ev s) (foldEvents evs)

/-- The fold of the meanings over a sequence of commands. -/
def foldInstrs : List Instr → State → Host.Outcome State Fault Refusal
  | [], s => .next s
  | i :: is, s => andThen (exec i s) (foldInstrs is)

/-- The run that starts right after reset and whose host does `evs` (70_reset_and_hazards.md R172). -/
def State.resetWith (evs : List HostEvent) : State := { State.reset with inbox := evs }

/-- A state a run from reset reaches: after some steps, whatever the host does. -/
def State.Reachable (s : State) : Prop :=
  ∃ evs k, Host.Core.run Sys2Proof.core k (State.resetWith evs) = .next s

/-- The response word says the command was refused (30_encoding.md R64: `ERR`, bit 15). -/
def isRefusal (w : ResponseWord) : Bool := w.getLsbD 15

/-- A command that changes no element of the block's state (20_memory.md R38; 40_intake.md R80). -/
def quiet : Instr → Bool
  | .nop => true
  | .clr => false
  | .push _ => false
  | .val _ => false
  | .rdp _ => true
  | .rdb _ => true
  | .rdr _ => true

end Sys2Proof.Machine
end

