-- ==== Sys2Proof/Certificates/Slice0/Obligations.lean ====
section
/-!
DEFINITION. The statements for the provers. Each formalises what its docstring cites of the spec; where a
clause rests on the model's own choice, the docstring names the log entry.
-/

open Sys2Proof Sys2Proof.Machine

/-! ## Encoding (spec 30_encoding.md part B) -/

/-- Decoding and encoding agree in both directions, with every operand at every value. -/
def Obligations.DecodeEncodeRoundTrip : Prop :=
  (∀ i : Instr, i.wf = true → decode (encode i) = .ok i) ∧
    ∀ (cw : CommandWord) (i : Instr), decode cw = .ok i → i.wf = true ∧ encode i = cw

/-- A word is a command exactly if it selects a row of the opcode map, the row is the command's, and the
rows are disjoint (match and mask columns of 30_encoding.md B.2). -/
def Obligations.DecoderAgreesWithOpcodeMap : Prop :=
  (∀ cw : CommandWord, (∃ i, decode cw = .ok i) ↔ ∃ r ∈ opcodeMap, r.selects cw = true) ∧
    (∀ (cw : CommandWord) (i : Instr), decode cw = .ok i →
      ∃ r ∈ opcodeMap, r.selects cw = true ∧ r.mnemonic = i.mnemonic) ∧
    ∀ cw : CommandWord, ∀ r ∈ opcodeMap, ∀ r' ∈ opcodeMap,
      r.selects cw = true → r'.selects cw = true → r = r'

/-- Words written out from the encoding, one of each command (30_encoding.md B.2; 95_test_vectors.md). -/
def Obligations.WrittenWordsDecode : Prop :=
  decode 0b0000000000000000 = .ok .nop ∧
    decode 0b0001000000000000 = .ok .clr ∧
    decode 0b0010000001101111 = .ok (.push 0x6F) ∧
    decode 0b0011000000110000 = .ok (.val 0x30) ∧
    decode 0b0100000000111000 = .ok (.rdp 56) ∧
    decode 0b0101000000111111 = .ok (.rdb 63) ∧
    decode 0b0110000000000110 = .ok (.rdr .flags) ∧
    decode 0b0110000000000111 = .ok (.rdr (.reserved 7))

/-- R66: which words are illegal, that each is refused with 0x8001 and changes no state, that the next
command executes as if the illegal word had not been there, and that `RDR` with 7 to 255 is a legal word
refused with `E_REG`. -/
def Obligations.IllegalWordsRefused : Prop :=
  (∀ cw : CommandWord, (∃ err, decode cw = .error err) ↔
      7 ≤ (opField cw).toNat ∨ rsvField cw ≠ 0 ∨
        ((opField cw = 0 ∨ opField cw = 1) ∧ argField cw ≠ 0)) ∧
    (∀ (cw : CommandWord) (err : DecodeError) (s : State), decode cw = .error err →
      perform cw s = .next { s with rsp := some 0x8001 } ∧
        ∀ cw' : CommandWord, andThen (perform cw s) (perform cw') = perform cw' s) ∧
    ∀ (n : Byte) (s : State), 7 ≤ n.toNat →
      decode (0x6000 ||| n.setWidth 16) = .ok (.rdr (.reserved n)) ∧
        exec (.rdr (.reserved n)) s = .next { s with rsp := some 0x8004 }

/-! ## The step (spec 20_memory.md R37, R40, R45; 70_reset_and_hazards.md) -/

/-- When the host's next event is a word that decodes to `i`, the step takes it off the port and is `exec i`;
an illegal word and a reset are taken off the port likewise; `withFetchWord` places a word; with no event the
step changes nothing. The port and the idle step are the model's own form (log entries 1, 2, 5). -/
def Obligations.StepRunsDecodedCommand : Prop :=
  (∀ (s : State) (cw : CommandWord) (rest : List HostEvent), s.inbox = .command cw :: rest →
      (∀ i : Instr, decode cw = .ok i → step s = exec i { s with inbox := rest }) ∧
        ∀ err : DecodeError, decode cw = .error err →
          step s = .next { s with inbox := rest, rsp := some 0x8001 }) ∧
    (∀ (s : State) (rest : List HostEvent), s.inbox = .reset :: rest →
      step s = handle .reset { s with inbox := rest }) ∧
    (∀ (s : State) (cw : CommandWord) (i : Instr), decode cw = .ok i →
      step (s.withFetchWord 16 cw.toNat) = exec i s) ∧
    ∀ s : State, s.inbox = [] → step s = .next s

/-- A reset leaves exactly what `CLR` leaves in the six elements, no byte of `BUF` readable, and no response
word (70_reset_and_hazards.md R160). The last clause is the model's choice: that the block waits is a step
that changes nothing while the port is empty (log entry 2, DEDUCED). -/
def Obligations.ResetEventEffect : Prop :=
  ∀ s : State, ∃ t, handle .reset s = .next t ∧
    t.count = 0 ∧ t.status = .stNone ∧ t.rcode = 0x00 ∧ t.plen = 0 ∧ t.ovf = false ∧
    t.rsp = none ∧
    exec .clr s = .next { t with rsp := some 0x0000 } ∧
    (∀ i : Byte, exec (.rdb i) t = .next { t with rsp := some 0x8003 }) ∧
    step { t with inbox := [] } = .next { t with inbox := [] }

/-- R161: no later command tells a reset from a `CLR`. -/
def Obligations.ResetLooksLikeClear : Prop :=
  ∀ s t u : State, exec .clr s = .next t → handle .reset s = .next u →
    u = { t with rsp := none } ∧ ∀ i : Instr, exec i t = exec i u

/-- R25: the values after reset and after `CLR`, and what the views then read. -/
def Obligations.ResetValues : Prop :=
  (State.reset.count = 0 ∧ State.reset.status.code = 0 ∧ State.reset.rcode = 0x00 ∧
      State.reset.payloadLen = 0 ∧ State.reset.ovf = false ∧ ∀ i, State.reset.load i = none) ∧
    (∀ s t : State, exec .clr s = .next t →
      t.count = 0 ∧ t.status.code = 0 ∧ t.rcode = 0x00 ∧ t.payloadLen = 0 ∧ t.ovf = false ∧
        ∀ i, t.load i = none) ∧
    ∀ t : State, t = State.reset ∨ (∃ s, exec .clr s = .next t) →
      exec (.rdr .csum) t = .next { t with rsp := some 0x0000 } ∧
        exec (.rdr .len) t = .next { t with rsp := some 0x8005 } ∧
        exec (.rdr .flags) t = .next { t with rsp := some 0x0000 }

/-- R40: what a run over a sequence of events leaves is the fold of the per-event rules over the sequence,
starting from the state before it. The sequence stands on the model's port (log entry 1). -/
def Obligations.RunIsFoldOfCommandRules : Prop :=
  ∀ (evs : List HostEvent) (s : State),
    Host.Core.run Sys2Proof.core evs.length { s with inbox := evs } =
      foldEvents evs { s with inbox := [] }

/-- The step is total (20_memory.md R45). From a state that meets the invariant, every one of the 65536 words
has a next state and returns one response word, an illegal one without any other effect, and every event of
the host has a next state. That the host's silence has one too is the model's choice (log entry 2, DEDUCED). -/
def Obligations.StepIsTotal : Prop :=
  (∀ (s : State) (cw : CommandWord), s.Inv →
      ∃ t r, perform cw s = .next t ∧ t.rsp = some r ∧
        ((∀ i, decode cw ≠ .ok i) → r = 0x8001 ∧ s.SameBlock t)) ∧
    ∀ s : State, s.Inv → ∃ t, step s = .next t

/-- The shape of every response word, and the five refusal words (30_encoding.md R64). -/
def Obligations.ResponseWordShape : Prop :=
  ∀ (cw : CommandWord) (s t : State), perform cw s = .next t →
    ∃ r : ResponseWord, t.rsp = some r ∧ r.extractLsb' 8 7 = 0 ∧
      (isRefusal r = true →
        r = 0x8001 ∨ r = 0x8002 ∨ r = 0x8003 ∨ r = 0x8004 ∨ r = 0x8005)

/-! ## Intake (spec 40_intake.md) -/

/-- R80: `NOP`. -/
def Obligations.NopDoesNothing : Prop :=
  (∀ cw : CommandWord, decode cw = .ok .nop ↔ cw = 0x0000) ∧
    (∀ cw : CommandWord, 0x0001 ≤ cw.toNat → cw.toNat ≤ 0x0FFF → ∃ err, decode cw = .error err) ∧
    ∀ s : State, exec .nop s = .next { s with rsp := some 0x0000 }

/-- R81: `CLR`. It is the only command that lowers `CNT` or clears `OVF`. -/
def Obligations.ClearGivesResetState : Prop :=
  (∀ cw : CommandWord, decode cw = .ok .clr ↔ cw = 0x1000) ∧
    (∀ cw : CommandWord, 0x1001 ≤ cw.toNat → cw.toNat ≤ 0x1FFF → ∃ err, decode cw = .error err) ∧
    (∀ s : State, ∃ t, exec .clr s = .next t ∧
      t = { State.reset with inbox := s.inbox, rsp := some 0x0000 } ∧
      exec .clr t = .next t ∧
      exec (.rdr .csum) t = .next { t with rsp := some 0x0000 } ∧
      exec (.rdr .len) t = .next { t with rsp := some 0x8005 } ∧
      exec (.rdr .flags) t = .next { t with rsp := some 0x0000 } ∧
      ∀ i : Byte, exec (.rdb i) t = .next { t with rsp := some 0x8003 }) ∧
    ∀ (i : Instr) (s t : State), exec i s = .next t →
      (t.count < s.count → i = .clr) ∧ (s.ovf = true → t.ovf = false → i = .clr)

/-- R82: `PUSH` with `CNT < 64`, its next state in every field, the view `CSUM` after it, and that up to 64
pushes on an empty buffer leave exactly the pushed bytes in order. -/
def Obligations.PushAppendsByte : Prop :=
  (∀ (cw : CommandWord) (b : Byte), decode cw = .ok (.push b) ↔ cw = 0x2000 ||| b.setWidth 16) ∧
    (∀ (s : State) (b : Byte), s.count < 64 →
      ∃ t, exec (.push b) s = .next t ∧
        t.load s.count = some b ∧ (∀ i, i ≠ s.count → t.load i = s.load i) ∧
        t.count = s.count + 1 ∧ t.status = .stNone ∧ t.rcode = 0x00 ∧ t.plen = 0 ∧
        t.ovf = s.ovf ∧ t.inbox = s.inbox ∧ t.rsp = some (BitVec.ofNat 16 (s.count + 1)) ∧
        t.csum = s.csum.map (· ^^^ b)) ∧
    ∀ (bs : List Byte) (s : State), s.count = 0 → bs.length ≤ 64 →
      ∃ t, foldInstrs (bs.map Instr.push) s = .next t ∧ t.Holds bs

/-- R83: `PUSH` with `CNT = 64` drops the byte and sets the sticky `OVF`; a full buffer can still be
validated, and a 64-byte frame is a legal reply. -/
def Obligations.PushOnFullBufferSetsOverflow : Prop :=
  (∀ (s : State) (b : Byte), s.count = 64 →
      exec (.push b) s = .next { s with ovf := true, rsp := some 0x8002 }) ∧
    (∀ (i : Instr) (s t : State), i ≠ .clr → s.ovf = true → exec i s = .next t → t.ovf = true) ∧
    (∀ (s : State) (e : Byte) (bs : List Byte), s.Holds bs → bs.length = 64 →
      ∃ t, exec (.val e) s = .next t) ∧
    ∀ (s : State) (o : Byte) (P F : List Byte), P.length = 57 →
      makeReply 0x00 o P = some F → s.Holds F →
        F[2]? = some 60 ∧ ∃ t, exec (.val o) s = .next t ∧ t.status = .stOk

/-- R84: a successful `PUSH` drops the verdict, so a held verdict is on the present contents and `RDP` gives
nothing once the frame has grown. -/
def Obligations.PushDiscardsVerdict : Prop :=
  (∀ (s : State) (b : Byte), s.count < 64 →
      ∃ t, exec (.push b) s = .next t ∧ t.status = .stNone ∧ t.rcode = 0x00 ∧ t.plen = 0 ∧
        ∀ i : Byte, exec (.rdp i) t = .next { t with rsp := some 0x8003 }) ∧
    ∀ s : State, s.Reachable → s.status ≠ .stNone →
      ∃ e, decodeReply e s.load s.count = some ⟨s.status, s.rcode, s.payloadLen⟩

/-- R16: `OVF` is set only by a `PUSH` that finds the buffer full, cleared only by `CLR` and reset, and takes
no part in validation. -/
def Obligations.OverflowIsSticky : Prop :=
  (∀ (s : State) (b : Byte), s.count = 64 →
      ∃ t, exec (.push b) s = .next t ∧ t.ovf = true) ∧
    (∀ (i : Instr) (s t : State), exec i s = .next t →
      (s.ovf = false → t.ovf = true → 64 ≤ s.count ∧ ∃ b, i = .push b) ∧
        (s.ovf = true → t.ovf = false → i = .clr)) ∧
    (∀ s : State, (∃ t, exec .clr s = .next t ∧ t.ovf = false) ∧
      ∀ rest, ∃ t, step { s with inbox := .reset :: rest } = .next t ∧ t.ovf = false) ∧
    ∀ (e : Byte) (o : Bool) (s t : State), exec (.val e) s = .next t →
      t.ovf = s.ovf ∧ exec (.val e) { s with ovf := o } = .next { t with ovf := o }

/-- R85: neither the byte pushed nor any byte held before it shows in anything but the buffer, and no `PUSH`
reports a verdict; all judgement is `VAL`'s, on the bytes held; looking early through `HDROK` and `COMPLETE`
changes nothing. -/
def Obligations.IntakeDoesNotValidate : Prop :=
  (∀ (s s' t t' : State) (b b' : Byte),
      s'.cnt = s.cnt → s'.status = s.status → s'.rcode = s.rcode → s'.plen = s.plen → s'.ovf = s.ovf →
      exec (.push b) s = .next t → exec (.push b') s' = .next t' →
        t'.cnt = t.cnt ∧ t'.status = t.status ∧ t'.rcode = t.rcode ∧ t'.plen = t.plen ∧
          t'.ovf = t.ovf ∧ t'.rsp = t.rsp ∧ (t.status = .stNone ∨ t.status = s.status)) ∧
    (∀ (s t : State) (e : Byte) (bs : List Byte), s.Holds bs → exec (.val e) s = .next t →
      ∃ v, decodeReply e (bytesOf bs) bs.length = some v ∧ t.status = v.status ∧
        t.rcode = v.rcode) ∧
    ∀ s t : State, exec (.rdr .flags) s = .next t → s.SameBlock t

/-- `CNT` moves only by one (a successful `PUSH`) or to 0 (`CLR`), and never exceeds 64. -/
def Obligations.CountMovesByOneOrToZero : Prop :=
  ∀ (i : Instr) (s t : State), s.count ≤ 64 → exec i s = .next t →
    t.count ≤ 64 ∧
      (t.count = s.count ∨ (t.count = s.count + 1 ∧ ∃ b, i = .push b) ∨ (t.count = 0 ∧ i = .clr))

/-! ## Validation (spec 41_validate.md) -/

/-- R93: check 1. Fewer than two bytes, or a wrong header byte, give HeaderError. -/
def Obligations.ValHeaderError : Prop :=
  ∀ (s : State) (e : Byte) (bs : List Byte), s.Holds bs →
    (bs.length < 2 ∨ bs[0]? ≠ some 0x6F ∨ bs[1]? ≠ some 0x37) →
      exec (.val e) s =
        .next { s with status := .stHeader, rcode := 0x00, plen := 0, rsp := some 0x0002 }

/-- R94, R96, R97: check 2. With a good header, no length byte, a declared length that is not the number of
bytes less four, or one below 3, give LengthError. -/
def Obligations.ValLengthError : Prop :=
  ∀ (s : State) (e : Byte) (bs : List Byte), s.Holds bs →
    bs[0]? = some 0x6F → bs[1]? = some 0x37 →
    (bs.length = 2 ∨ ∃ l : Byte, bs[2]? = some l ∧ (l.toNat + 4 ≠ bs.length ∨ l.toNat < 3)) →
      exec (.val e) s =
        .next { s with status := .stLength, rcode := 0x00, plen := 0, rsp := some 0x0003 }

/-- R98, R99, R100: checks 3, 4 and 5, each with the earlier checks passed, whatever the later bytes are. -/
def Obligations.ValBodyErrors : Prop :=
  ∀ (s : State) (e l m rc o : Byte) (bs : List Byte), s.Holds bs →
    bs[0]? = some 0x6F → bs[1]? = some 0x37 → bs[2]? = some l →
    l.toNat + 4 = bs.length → 3 ≤ l.toNat →
    bs[3]? = some m → bs[4]? = some rc → bs[5]? = some o →
      (m ≠ 0x02 → exec (.val e) s =
        .next { s with status := .stFormat, rcode := 0x00, plen := 0, rsp := some 0x0004 }) ∧
      (m = 0x02 → rc ≠ 0x00 → exec (.val e) s =
        .next { s with status := .stResult, rcode := rc, plen := 0, rsp := some 0x0005 }) ∧
      (m = 0x02 → rc = 0x00 → o ≠ e → exec (.val e) s =
        .next { s with status := .stCommand, rcode := 0x00, plen := 0, rsp := some 0x0006 })

/-- R101, R103: check 6 over bytes `[0 .. length+3)`, and step 7: with all checks passed the payload is the
`length - 3` bytes from index 6. -/
def Obligations.ValChecksumAndSuccess : Prop :=
  ∀ (s : State) (e l : Byte) (bs : List Byte), s.Holds bs → bs.length ≤ 64 →
    bs[0]? = some 0x6F → bs[1]? = some 0x37 → bs[2]? = some l →
    l.toNat + 4 = bs.length → 3 ≤ l.toNat →
    bs[3]? = some 0x02 → bs[4]? = some 0x00 → bs[5]? = some e →
      (xor8 (bytesOf bs) 0 (l.toNat + 3) ≠ bs[l.toNat + 3]? → exec (.val e) s =
        .next { s with status := .stChecksum, rcode := 0x00, plen := 0, rsp := some 0x0007 }) ∧
      (xor8 (bytesOf bs) 0 (l.toNat + 3) = bs[l.toNat + 3]? →
        ∃ t, exec (.val e) s = .next t ∧ s.Holds bs ∧
          t = { s with status := .stOk, rcode := 0x00, plen := BitVec.ofNat 6 (l.toNat - 3),
                       rsp := some 0x0001 } ∧
          t.payloadLen = l.toNat - 3 ∧
          ∀ k, k < l.toNat - 3 → ∃ b, bs[6 + k]? = some b ∧
            exec (.rdp (BitVec.ofNat 8 k)) t = .next { t with rsp := some (b.setWidth 16) })

/-- R102: given checks 1 and 2, check 6 passes exactly if the XOR of the whole buffer is zero, which the host
sees as `RDR CSUM = 0x00`; the zero alone does not validate a frame. -/
def Obligations.WholeFrameXorDecidesChecksum : Prop :=
  (∀ (s : State) (l : Byte) (bs : List Byte), s.Holds bs →
      bs[0]? = some 0x6F → bs[1]? = some 0x37 → bs[2]? = some l →
      l.toNat + 4 = bs.length → 3 ≤ l.toNat →
        (xor8 (bytesOf bs) 0 (l.toNat + 3) = bs[l.toNat + 3]? ↔
          xor8 (bytesOf bs) 0 bs.length = some 0x00) ∧
        (exec (.rdr .csum) s = .next { s with rsp := some 0x0000 } ↔
          xor8 (bytesOf bs) 0 bs.length = some 0x00)) ∧
    ∃ (e : Byte) (bs : List Byte) (v : Verdict), bs.length = 8 ∧
      xor8 (bytesOf bs) 0 bs.length = some 0x00 ∧
      decodeReply e (bytesOf bs) bs.length = some v ∧ v.status ≠ .stOk

/-- R106: `VAL` writes the triple of `DecodeReply` and nothing else, answers the status, is carried out in
every state, and never answers `ST_NONE`. -/
def Obligations.ValWritesVerdict : Prop :=
  (∀ (cw : CommandWord) (e : Byte), decode cw = .ok (.val e) ↔ cw = 0x3000 ||| e.setWidth 16) ∧
    (∀ (s : State) (e : Byte), s.Inv →
      ∃ (v : Verdict) (t : State), decodeReply e s.load s.count = some v ∧
        exec (.val e) s = .next t ∧
        t = { s with status := v.status, rcode := v.rcode, plen := BitVec.ofNat 6 v.plen,
                     rsp := some (v.status.code.setWidth 16) } ∧
        t.payloadLen = v.plen ∧ 1 ≤ v.status.code.toNat ∧ v.status.code.toNat ≤ 7 ∧
        ∀ o : Bool, exec (.val e) { s with ovf := o } = .next { t with ovf := o }) ∧
    (∀ (s : State) (e : Byte), s.count = 0 →
      exec (.val e) s =
        .next { s with status := .stHeader, rcode := 0x00, plen := 0, rsp := some 0x0002 }) ∧
    ∀ (s t : State) (e : Byte), s.count = 64 → exec (.val e) s = .next t → t.status = .stOk →
      s.load 2 = some 60

/-- R150: a validation error writes exactly the three result registers and returns the status; the frame can
still be read. -/
def Obligations.ValidationErrorRecords : Prop :=
  ∀ (s t : State) (e : Byte), exec (.val e) s = .next t → t.status ≠ .stOk →
    t = { s with status := t.status, rcode := t.rcode, plen := 0,
                 rsp := some (t.status.code.setWidth 16) } ∧
      (t.status = .stResult → s.load 4 = some t.rcode ∧ t.rcode ≠ 0x00) ∧
      (t.status ≠ .stResult → t.rcode = 0x00) ∧
      (∀ i : Byte, exec (.rdb i) t = andThen (exec (.rdb i) s) fun u => .next { t with rsp := u.rsp }) ∧
      ∀ r ∈ [Reg.len, Reg.cnt, Reg.csum],
        exec (.rdr r) t = andThen (exec (.rdr r) s) fun u => .next { t with rsp := u.rsp }

/-- R149: the priority table, row by row, over `CNT` and the bytes held; no command but `VAL` writes a
verdict, `VAL` is never refused, and an illegal word is refused before anything else. -/
def Obligations.VerdictPriority : Prop :=
  (∀ (s t : State) (e : Byte) (bs : List Byte), s.Holds bs → exec (.val e) s = .next t →
    let n := bs.length
    let row1 := n < 2 ∨ bs[0]? ≠ some 0x6F ∨ bs[1]? ≠ some 0x37
    let row2 := n = 2
    let row3 := ∀ l : Byte, bs[2]? = some l → l.toNat + 4 ≠ n
    let row4 := ∀ l : Byte, bs[2]? = some l → l.toNat < 3
    let row5 := bs[3]? ≠ some 0x02
    let row6 := bs[4]? ≠ some 0x00
    let row7 := bs[5]? ≠ some e
    let row8 := xor8 (bytesOf bs) 0 (n - 1) ≠ bs[n - 1]?
    (t.status = .stHeader ↔ row1) ∧
    (t.status = .stLength ↔ ¬row1 ∧ (row2 ∨ row3 ∨ row4)) ∧
    (t.status = .stFormat ↔ ¬row1 ∧ ¬row2 ∧ ¬row3 ∧ ¬row4 ∧ row5) ∧
    (t.status = .stResult ↔ ¬row1 ∧ ¬row2 ∧ ¬row3 ∧ ¬row4 ∧ ¬row5 ∧ row6) ∧
    (t.status = .stCommand ↔ ¬row1 ∧ ¬row2 ∧ ¬row3 ∧ ¬row4 ∧ ¬row5 ∧ ¬row6 ∧ row7) ∧
    (t.status = .stChecksum ↔
      ¬row1 ∧ ¬row2 ∧ ¬row3 ∧ ¬row4 ∧ ¬row5 ∧ ¬row6 ∧ ¬row7 ∧ row8) ∧
    (t.status = .stOk ↔
      ¬row1 ∧ ¬row2 ∧ ¬row3 ∧ ¬row4 ∧ ¬row5 ∧ ¬row6 ∧ ¬row7 ∧ ¬row8)) ∧
    (∀ (s t : State) (e : Byte), exec (.val e) s = .next t →
      ∃ r, t.rsp = some r ∧ isRefusal r = false ∧ r = t.status.code.setWidth 16) ∧
    (∀ (i : Instr) (s t : State), (∀ e, i ≠ .val e) → exec i s = .next t →
      t.status = s.status ∨ t.status = .stNone) ∧
    ∀ (cw : CommandWord) (err : DecodeError) (s : State), decode cw = .error err →
      ∃ t, perform cw s = .next t ∧ t.rsp = some 0x8001

/-- R105: what `DecodeReply` does not read. -/
def Obligations.DecodeReplyReadsOnlyItsInputs : Prop :=
  (∀ (e : Byte) (B B' : Nat → Option Byte) (n : Nat), (∀ i, i < n → B i = B' i) →
      decodeReply e B n = decodeReply e B' n) ∧
    (∀ (e l : Byte) (B B' : Nat → Option Byte) (n : Nat), B 2 = some l →
      (∀ i, i < n → ¬(6 ≤ i ∧ i ≤ l.toNat + 2) → B i = B' i) →
      xor8 B 0 (l.toNat + 3) = xor8 B' 0 (l.toNat + 3) →
        decodeReply e B n = decodeReply e B' n) ∧
    (∀ (e e' : Byte) (B : Nat → Option Byte) (n : Nat), (B 5 = some e ↔ B 5 = some e') →
      decodeReply e B n = decodeReply e' B n) ∧
    ∀ (s s' t : State) (e : Byte), s.buf = s'.buf → s.cnt = s'.cnt → exec (.val e) s = .next t →
      ∃ t', exec (.val e) s' = .next t' ∧ t'.status = t.status ∧ t'.rcode = t.rcode ∧
        t'.plen = t.plen ∧ t'.rsp = t.rsp

/-- R107: `VAL` is repeatable and non-destructive; another expected opcode re-judges the same bytes, and only
check 5 and what follows it can come out differently. -/
def Obligations.ValIsRepeatable : Prop :=
  ∀ (s t : State) (e : Byte), exec (.val e) s = .next t →
    t.buf = s.buf ∧ t.cnt = s.cnt ∧ t.ovf = s.ovf ∧ exec (.val e) t = .next t ∧
      ∀ e2 : Byte, exec (.val e2) t = exec (.val e2) s ∧
        (t.status = .stHeader ∨ t.status = .stLength ∨ t.status = .stFormat ∨
            t.status = .stResult → exec (.val e2) t = .next t)

/-- R91: the laws of `Xor8` on byte strings. -/
def Obligations.XorLaws : Prop :=
  (∀ (x y z : Byte), x ^^^ (y ^^^ z) = (x ^^^ y) ^^^ z ∧ x ^^^ y = y ^^^ x ∧ x ^^^ 0x00 = x ∧
      x ^^^ x = 0x00) ∧
    (∀ (B : Nat → Option Byte) (a b c : Nat) (x y : Byte), a ≤ b → b ≤ c →
      xor8 B a b = some x → xor8 B b c = some y → xor8 B a c = some (x ^^^ y)) ∧
    (∀ F F' : List Byte, F.Perm F' →
      xor8 (bytesOf F) 0 F.length = xor8 (bytesOf F') 0 F'.length) ∧
    (∀ (B : Nat → Option Byte) (a b i : Nat) (x y z : Byte), a ≤ i → i < b → B i = some x →
      xor8 B a b = some z →
        xor8 (fun j => if j = i then some y else B j) a b = some (z ^^^ (x ^^^ y))) ∧
    (∀ (B : Nat → Option Byte) (n : Nat) (z : Byte), xor8 B 0 (n + 1) = some z →
      (xor8 B 0 n = B n ↔ z = 0x00)) ∧
    ∀ (B : Nat → Option Byte) (a b i j : Nat) (x y f z : Byte), a ≤ i → i < b → a ≤ j → j < b →
      i ≠ j → B i = some x → B j = some y → xor8 B a b = some z →
        xor8 (fun k => if k = i then some (x ^^^ f) else if k = j then some (y ^^^ f) else B k) a b =
          some z

/-- R110: the single-bit-flip law, by the index of the flipped byte. -/
def Obligations.SingleBitFlipDetected : Prop :=
  ∀ (o : Byte) (P F : List Byte) (i k : Nat), P.length ≤ 57 →
    makeReply 0x00 o P = some F → i < F.length → k < 8 →
      decodeReply o (bytesOf (F.modify i (· ^^^ BitVec.twoPow 8 k))) F.length =
        some
          (if i = 0 ∨ i = 1 then ⟨.stHeader, 0x00, 0⟩
          else if i = 2 then ⟨.stLength, 0x00, 0⟩
          else if i = 3 then ⟨.stFormat, 0x00, 0⟩
          else if i = 4 then ⟨.stResult, BitVec.twoPow 8 k, 0⟩
          else if i = 5 then ⟨.stCommand, 0x00, 0⟩
          else ⟨.stChecksum, 0x00, 0⟩)

/-- R111: the well-formed-reply law. -/
def Obligations.WellFormedRepliesDecode : Prop :=
  ∀ (o : Byte) (P : List Byte), P.length ≤ 57 →
    ∃ F, makeReply 0x00 o P = some F ∧
      decodeReply o (bytesOf F) (7 + P.length) = some ⟨.stOk, 0x00, P.length⟩ ∧
      (F.drop 6).take P.length = P

/-- R112: the converse, so the accepted byte strings are exactly the well-formed success replies. -/
def Obligations.AcceptsOnlyWellFormedReplies : Prop :=
  ∀ (e : Byte) (bs : List Byte) (p : Nat), bs.length ≤ 64 →
    (decodeReply e (bytesOf bs) bs.length = some ⟨.stOk, 0x00, p⟩ ↔
      makeReply 0x00 e ((bs.drop 6).take p) = some bs ∧ bs.length = 7 + p)

/-- A verdict read too early loses nothing: the remaining bytes may be pushed and `VAL` issued again
(70_reset_and_hazards.md section 3). -/
def Obligations.PrematureValLosesNothing : Prop :=
  ∀ (s : State) (e e' : Byte) (bs : List Byte), s.Inv →
    foldInstrs (.val e :: (bs.map Instr.push ++ [.val e'])) s =
      foldInstrs (bs.map Instr.push ++ [.val e']) s

/-! ## Read-out (spec 42_readout.md) -/

/-- R120: `RDP`, carried out and refused, and that the byte it reads lies below the checksum byte. -/
def Obligations.RdpReadsPayload : Prop :=
  (∀ (cw : CommandWord) (i : Byte), decode cw = .ok (.rdp i) ↔ cw = 0x4000 ||| i.setWidth 16) ∧
    (∀ (s : State) (i b : Byte), s.status = .stOk → i.toNat < s.payloadLen →
      s.load (6 + i.toNat) = some b →
        exec (.rdp i) s = .next { s with rsp := some (b.setWidth 16) }) ∧
    (∀ (s : State) (i : Byte), ¬(s.status = .stOk ∧ i.toNat < s.payloadLen) →
      exec (.rdp i) s = .next { s with rsp := some 0x8003 }) ∧
    ∀ (s : State) (i : Byte), s.Inv → s.payloadLen ≤ 57 ∧
      (s.status = .stOk → s.payloadLen + 7 = s.count ∧
        (i.toNat < s.payloadLen →
          6 + i.toNat + 2 ≤ s.count ∧ ∃ b, s.load (6 + i.toNat) = some b))

/-- R121: `RDB`, carried out and refused; `RDB 2` answers as `RDR LEN` does. -/
def Obligations.RdbReadsBuffer : Prop :=
  (∀ (cw : CommandWord) (i : Byte), decode cw = .ok (.rdb i) ↔ cw = 0x5000 ||| i.setWidth 16) ∧
    (∀ (s : State) (i b : Byte), i.toNat < s.count → s.load i.toNat = some b →
      exec (.rdb i) s = .next { s with rsp := some (b.setWidth 16) }) ∧
    (∀ (s : State) (i : Byte), s.count ≤ i.toNat →
      exec (.rdb i) s = .next { s with rsp := some 0x8003 }) ∧
    (∀ (s : State) (i : Byte), s.Inv → 64 ≤ i.toNat →
      exec (.rdb i) s = .next { s with rsp := some 0x8003 }) ∧
    ∀ s : State, 3 ≤ s.count → exec (.rdb 2) s = exec (.rdr .len) s

/-- R122: `RDR`, by register number. -/
def Obligations.RdrReadsRegisters : Prop :=
  (∀ cw : CommandWord, (∃ r, decode cw = .ok (.rdr r)) ↔ cw &&& 0xFF00 = 0x6000) ∧
    (∀ n : Byte, decode (0x6000 ||| n.setWidth 16) = .ok (.rdr (Reg.ofNumber n))) ∧
    (∀ s : State,
      exec (.rdr (Reg.ofNumber 0)) s = .next { s with rsp := some (s.status.code.setWidth 16) } ∧
      exec (.rdr (Reg.ofNumber 1)) s = .next { s with rsp := some (s.cnt.setWidth 16) } ∧
      exec (.rdr (Reg.ofNumber 2)) s = .next { s with rsp := some (s.rcode.setWidth 16) } ∧
      exec (.rdr (Reg.ofNumber 3)) s = .next { s with rsp := some (s.plen.setWidth 16) }) ∧
    (∀ (s : State) (x : Byte), xor8 s.load 0 s.count = some x →
      exec (.rdr (Reg.ofNumber 4)) s = .next { s with rsp := some (x.setWidth 16) }) ∧
    (∀ (s : State) (l : Byte), 3 ≤ s.count → s.load 2 = some l →
      exec (.rdr (Reg.ofNumber 5)) s = .next { s with rsp := some (l.setWidth 16) }) ∧
    (∀ s : State, s.count < 3 →
      exec (.rdr (Reg.ofNumber 5)) s = .next { s with rsp := some 0x8005 }) ∧
    (∀ (s : State) (h c : Bool), hdrok s.load s.count = some h → complete s.load s.count = some c →
      exec (.rdr (Reg.ofNumber 6)) s =
        .next { s with
          rsp := some ((BitVec.ofBool h ++ BitVec.ofBool c ++ BitVec.ofBool s.ovf).setWidth 16) }) ∧
    ∀ (s : State) (n : Byte), 7 ≤ n.toNat →
      exec (.rdr (Reg.ofNumber n)) s = .next { s with rsp := some 0x8004 }

/-- R19: the two parser flags, as the host reads them, and that each is set exactly when its check of
`DecodeReply` passes (`COMPLETE`: when check 2 would pass were check 1 to pass). -/
def Obligations.ParserFlagsMirrorChecks : Prop :=
  ∀ (s : State) (bs : List Byte), s.Holds bs →
    ∃ f : ResponseWord, exec (.rdr .flags) s = .next { s with rsp := some f } ∧
      f.getLsbD 0 = s.ovf ∧
      (f.getLsbD 2 = true ↔ 2 ≤ bs.length ∧ bs[0]? = some 0x6F ∧ bs[1]? = some 0x37) ∧
      (f.getLsbD 1 = true ↔
        3 ≤ bs.length ∧ ∃ l : Byte, bs[2]? = some l ∧ 3 ≤ l.toNat ∧ bs.length = l.toNat + 4) ∧
      f.extractLsb' 3 13 = 0 ∧
      ∀ e : Byte,
        (∃ v, decodeReply e (bytesOf bs) bs.length = some v ∧
          (f.getLsbD 2 = true ↔ v.status ≠ .stHeader)) ∧
        (∃ v, decodeReply e (bytesOf (0x6F :: 0x37 :: bs.drop 2)) (2 + (bs.length - 2)) = some v ∧
          (f.getLsbD 1 = true ↔ v.status ≠ .stLength)) ∧
        (f.getLsbD 1 = true → ∀ l : Byte, bs[2]? = some l →
          l.toNat + 3 = bs.length - 1 ∧ fieldOf (bs.length - 1) l.toNat = some .csum ∧
          ∀ i, 3 ≤ i → i ≤ l.toNat + 2 → ∃ g, fieldOf i l.toNat = some g ∧ g.inBody = true)

/-- R38: no read has a side effect, on refusal neither; a read may be repeated and answers the same while
only reads and `NOP` intervene; `VAL` changes only the three result registers. -/
def Obligations.ReadsHaveNoSideEffects : Prop :=
  (∀ (i : Instr) (s t : State), quiet i = true → exec i s = .next t →
      s.SameBlock t ∧ exec i t = .next t ∧
        ∀ (j : Instr) (u : State), quiet j = true → exec j s = .next u → exec i u = exec i s) ∧
    ∀ (e : Byte) (s t : State), exec (.val e) s = .next t →
      t.buf = s.buf ∧ t.cnt = s.cnt ∧ t.ovf = s.ovf ∧ exec (.val e) t = .next t

/-! ## Refusals (spec 60_exceptions.md) -/

/-- R148: which commands are refused, when, and with what state change. -/
def Obligations.RefusalTable : Prop :=
  ∀ (cw : CommandWord) (s t : State), s.count ≤ 64 → perform cw s = .next t →
    (t.rsp = some 0x8001 ↔ ∀ i, decode cw ≠ .ok i) ∧
    (t.rsp = some 0x8002 ↔ (∃ b, decode cw = .ok (.push b)) ∧ s.count = 64) ∧
    (t.rsp = some 0x8003 ↔
      (∃ i, decode cw = .ok (.rdp i) ∧ (s.status ≠ .stOk ∨ s.payloadLen ≤ i.toNat)) ∨
        ∃ i, decode cw = .ok (.rdb i) ∧ s.count ≤ i.toNat) ∧
    (t.rsp = some 0x8004 ↔ ∃ n : Byte, 7 ≤ n.toNat ∧ decode cw = .ok (.rdr (.reserved n))) ∧
    (t.rsp = some 0x8005 ↔ decode cw = .ok (.rdr .len) ∧ s.count < 3) ∧
    ∀ r, t.rsp = some r → isRefusal r = true →
      (r = 0x8001 ∨ r = 0x8002 ∨ r = 0x8003 ∨ r = 0x8004 ∨ r = 0x8005) ∧
        t.buf = s.buf ∧ t.cnt = s.cnt ∧ t.status = s.status ∧ t.rcode = s.rcode ∧
        t.plen = s.plen ∧ t.ovf = (if r = 0x8002 then true else s.ovf) ∧
        decode cw ≠ .ok .nop ∧ decode cw ≠ .ok .clr ∧ ∀ e, decode cw ≠ .ok (.val e)

/-! ## Frames of the commands -/

/-- What `NOP`, `RDP`, `RDB`, `RDR` and `VAL` leave unchanged: every byte of the buffer, and every register
but the three result registers of `VAL`. -/
def Obligations.NonStoringCommandsFrame : Prop :=
  ∀ (i : Instr) (s t : State), exec i s = .next t → i ≠ .clr → (∀ b, i ≠ .push b) →
    (∀ a, t.load a = s.load a) ∧ t.cnt = s.cnt ∧ t.ovf = s.ovf ∧ t.inbox = s.inbox ∧
      ((∀ e, i ≠ .val e) → t.status = s.status ∧ t.rcode = s.rcode ∧ t.plen = s.plen)

/-- What `PUSH` leaves unchanged: every byte of the buffer but the one at index `CNT` it stores to (none when
the buffer is full), `OVF` unless the buffer is full, every result register when it is full. `CLR` leaves
only what is not the block's state. -/
def Obligations.StoringCommandsFrame : Prop :=
  (∀ (b : Byte) (s t : State), exec (.push b) s = .next t →
    (∀ a, a ≠ s.count → t.load a = s.load a) ∧ t.inbox = s.inbox ∧
      (s.count < 64 → t.ovf = s.ovf) ∧
      (64 ≤ s.count → (∀ a, t.load a = s.load a) ∧ t.cnt = s.cnt ∧ t.status = s.status ∧
        t.rcode = s.rcode ∧ t.plen = s.plen)) ∧
    ∀ s t : State, exec .clr s = .next t → t.inbox = s.inbox ∧ ∀ a, t.load a = none

/-! ## Invariants (spec 10_state.md) -/

/-- Every step keeps the invariant, from every state that meets it, whatever the host does. -/
def Obligations.StepKeepsInvariant : Prop :=
  ∀ s t : State, s.Inv → step s = .next t → t.Inv

/-- The invariant holds right after reset, whatever the host is about to do. -/
def Obligations.ResetMeetsInvariant : Prop :=
  ∀ evs : List HostEvent, (State.resetWith evs).Inv

/-- Every step keeps the frame buffer in canonical form (log entry 3). -/
def Obligations.StepKeepsBufferCanonical : Prop :=
  ∀ s t : State, s.buf.wf → step s = .next t → t.buf.wf

/-- R26: what holds in every state a run from reset reaches, whatever the host does. -/
def Obligations.ReachableStatesMeetInvariants : Prop :=
  ∀ s : State, s.Reachable →
    s.count ≤ 64 ∧
    s.status.code.toNat ≤ 7 ∧
    (s.status ≠ .stResult → s.rcode = 0x00) ∧
    (s.status = .stResult → 7 ≤ s.count ∧ s.load 4 = some s.rcode ∧ s.rcode ≠ 0x00) ∧
    (s.status ≠ .stOk → s.payloadLen = 0) ∧
    (s.status = .stOk →
      7 ≤ s.count ∧ s.load 0 = some 0x6F ∧ s.load 1 = some 0x37 ∧
      (∃ l : Byte, s.load 2 = some l ∧ l.toNat + 4 = s.count) ∧
      s.load 3 = some 0x02 ∧ s.load 4 = some 0x00 ∧ xor8 s.load 0 s.count = some 0x00 ∧
      s.payloadLen + 7 = s.count) ∧
    (s.status = .stFormat ∨ s.status = .stResult ∨ s.status = .stCommand ∨
        s.status = .stChecksum →
      7 ≤ s.count ∧ hdrok s.load s.count = some true ∧ complete s.load s.count = some true) ∧
    (s.ovf = true → s.count = 64) ∧
    (s.status ≠ .stNone →
      ∃ e, decodeReply e s.load s.count = some ⟨s.status, s.rcode, s.payloadLen⟩)

/-- No load returns, and no verdict depends on, a byte at an index at or above `CNT`: two states that agree
below `CNT` answer every reading command and every `VAL` alike, for any payload within the buffer. -/
def Obligations.BytesAboveCountUnobservable : Prop :=
  ∀ (i : Instr) (s s' t : State), i ≠ .clr → (∀ b, i ≠ .push b) → s.Inv →
    s'.cnt = s.cnt → s'.status = s.status → s'.rcode = s.rcode → s'.plen = s.plen →
    s'.ovf = s.ovf → (∀ a, a < s.count → s'.load a = s.load a) → exec i s = .next t →
      ∃ t', exec i s' = .next t' ∧ t'.rsp = t.rsp ∧ t'.status = t.status ∧
        t'.rcode = t.rcode ∧ t'.plen = t.plen

/-! ## Wire frames and whole exchanges (spec 30_encoding.md part A; 70_reset_and_hazards.md) -/

/-- R32: every index of a frame that passes checks 1 and 2 belongs to exactly one field; the body and what
the checksum covers, by index. -/
def Obligations.FrameFieldsPartition : Prop :=
  ∀ l i : Nat, 3 ≤ l → i < l + 4 →
    ∃ g, fieldOf i l = some g ∧
      (g = .hdr ↔ i = 0 ∨ i = 1) ∧ (g = .len ↔ i = 2) ∧ (g = .marker ↔ i = 3) ∧
      (g = .result ↔ i = 4) ∧ (g = .opcode ↔ i = 5) ∧ (g = .data ↔ 6 ≤ i ∧ i ≤ l + 2) ∧
      (g = .csum ↔ i = l + 3) ∧ (g.inBody = true ↔ 3 ≤ i ∧ i ≤ l + 2) ∧
      (g.covered = true ↔ i ≤ l + 2)

/-- R57, R58: what `EncodeCommand` gives (header, a length byte that counts the body and nothing else,
body, and the XOR of every byte before it), where it has no value, and the read value of the direction byte. -/
def Obligations.CommandFramesWellFormed : Prop :=
  Direction.read.rw = 0xEB ∧ ∀ (rw o : Byte) (P : List Byte),
    (encodeCommand rw o P = none ↔ 253 < P.length) ∧
      ∀ F, encodeCommand rw o P = some F →
        F.length = 6 + P.length ∧
        F.take 2 = [0x37, 0x51] ∧
        (∃ l : Byte, F[2]? = some l ∧ l.toNat = 2 + P.length) ∧
        (F.drop 3).take (2 + P.length) = rw :: o :: P ∧
        F[5 + P.length]? = xor8 (bytesOf F) 0 (5 + P.length)

/-- R59: the well-formed reply. Beyond 252 data bytes the model gives no frame (log entry 10). -/
def Obligations.ReplyFramesWellFormed : Prop :=
  ∀ (rc o : Byte) (P : List Byte), P.length ≤ 252 →
    ∃ F, makeReply rc o P = some F ∧
      F.length = 7 + P.length ∧
      F.take 2 = [0x6F, 0x37] ∧
      (∃ l : Byte, F[2]? = some l ∧ l.toNat = 3 + P.length) ∧
      (F.drop 3).take (3 + P.length) = 0x02 :: rc :: o :: P ∧
      F[6 + P.length]? = xor8 (bytesOf F) 0 (6 + P.length) ∧
      (F.length ≤ 64 ↔ P.length ≤ 57)

/-- R61: after `CLR` and the bytes of a frame without its checksum, `RDR CSUM` gives the checksum byte, for
any byte string of at most 64 bytes; with the worked read-brightness command. -/
def Obligations.RunningXorBuildsChecksum : Prop :=
  (∀ (s : State) (F : List Byte), F.length ≤ 64 →
    ∃ t c, foldInstrs (.clr :: (F.map Instr.push ++ [.rdr .csum])) s = .next t ∧
      xor8 (bytesOf F) 0 F.length = some c ∧ t.rsp = some (c.setWidth 16)) ∧
    (∀ (s : State) (rw o : Byte) (P F : List Byte), 5 + P.length ≤ 64 →
      encodeCommand rw o P = some F →
        ∃ t c, foldInstrs (.clr :: ((F.take (5 + P.length)).map Instr.push ++ [.rdr .csum])) s =
            .next t ∧
          F[5 + P.length]? = some c ∧ t.rsp = some (c.setWidth 16)) ∧
    encodeCommand 0xEB 0x30 [] = some [0x37, 0x51, 0x02, 0xEB, 0x30, 0xBF]

/-- R70: the pseudo-instructions, and that `DECODE` leaves the verdict of the document's `decode_reply` on the
bytes, from every state. -/
def Obligations.DecodeSequenceComputesDecodeReply : Prop :=
  (∀ bs : List Byte, (Pseudo.frame bs).expand = bs.map Instr.push) ∧
    (∀ (e : Byte) (bs : List Byte),
      (Pseudo.decodeReply e bs).expand = .clr :: ((Pseudo.frame bs).expand ++ [.val e])) ∧
    Pseudo.chk.expand = [.rdr .csum] ∧
    ∀ (s : State) (e : Byte) (bs : List Byte), bs.length ≤ 64 →
      ∃ t v, foldInstrs (Pseudo.decodeReply e bs).expand s = .next t ∧
        decodeReply e (bytesOf bs) bs.length = some v ∧
        t.Holds bs ∧ t.status = v.status ∧ t.rcode = v.rcode ∧ t.payloadLen = v.plen ∧
        t.ovf = false ∧ t.rsp = some (v.status.code.setWidth 16)

/-- R167: bytes beyond the 64th are dropped with `OVF` set and the verdict is on the first 64, so a longer
reply gives LengthError and a 64-byte reply with stray bytes after it is accepted. -/
def Obligations.BytesBeyondLimitDropped : Prop :=
  (∀ (s : State) (e : Byte) (bs : List Byte), 64 < bs.length →
    ∃ t v, foldInstrs (.clr :: (bs.map Instr.push ++ [.val e])) s = .next t ∧
      decodeReply e (bytesOf (bs.take 64)) 64 = some v ∧
      t.Holds (bs.take 64) ∧ t.status = v.status ∧ t.ovf = true) ∧
    (∀ (s : State) (o rc : Byte) (P F : List Byte), makeReply rc o P = some F → 64 < F.length →
      ∃ t, foldInstrs (.clr :: (F.map Instr.push ++ [.val o])) s = .next t ∧
        t.status = .stLength) ∧
    ∀ (s : State) (o x : Byte) (P F : List Byte), makeReply 0x00 o P = some F → F.length = 64 →
      ∃ t, foldInstrs (.clr :: ((F ++ [x]).map Instr.push ++ [.val o])) s = .next t ∧
        t.ovf = true ∧ t.status = .stOk

/-- The whole exchange of a well-formed reply: from every state, `CLR`, the bytes of the reply and `VAL`
answer `ST_OK`, and `RDR PLEN` and `RDP` then give the payload (70_reset_and_hazards.md section 2). -/
def Obligations.ExchangeDeliversPayload : Prop :=
  ∀ (s : State) (o : Byte) (P F : List Byte), P.length ≤ 57 → makeReply 0x00 o P = some F →
    ∃ t, foldInstrs (Pseudo.decodeReply o F).expand s = .next t ∧
      t.rsp = some 0x0001 ∧
      exec (.rdr .plen) t = .next { t with rsp := some (BitVec.ofNat 16 P.length) } ∧
      (∀ k b, P[k]? = some b →
        exec (.rdp (BitVec.ofNat 8 k)) t = .next { t with rsp := some (b.setWidth 16) }) ∧
      ∀ i : Byte, P.length ≤ i.toNat → exec (.rdp i) t = .next { t with rsp := some 0x8003 }

/-- An assembly line's word is `(op << 12) or arg` of a command, and decodes to that command
(30_encoding.md B.4; the model's reading of the syntax is log entry 8). -/
def Obligations.AssembledWordsDecode : Prop :=
  ∀ (line : List Char) (cw : CommandWord), assemble line = some cw →
    ∃ i : Instr, parseLine line = some i ∧ i.wf = true ∧ decode cw = .ok i ∧
      cw = (i.op.setWidth 16 <<< 12) ||| i.arg.setWidth 16
end

