-- ==== Sys2Proof/Laws/Config.lean ====
section
/-!
SUPPORT. The values of the constants, for simp.
-/

namespace Sys2Proof

@[simp] theorem fpcv_rh0 : fpcv.rh0 = 0x6F#8 := rfl
@[simp] theorem fpcv_rh1 : fpcv.rh1 = 0x37#8 := rfl
@[simp] theorem fpcv_ch0 : fpcv.ch0 = 0x37#8 := rfl
@[simp] theorem fpcv_ch1 : fpcv.ch1 = 0x51#8 := rfl
@[simp] theorem fpcv_marker : fpcv.marker = 0x02#8 := rfl
@[simp] theorem fpcv_rcSuccess : fpcv.rcSuccess = 0x00#8 := rfl
@[simp] theorem fpcv_rwRead : fpcv.rwRead = 0xEB#8 := rfl
@[simp] theorem fpcv_maxf : fpcv.maxf = 64 := rfl
@[simp] theorem overhead_eq : overhead = 4 := rfl
@[simp] theorem fixedBody_eq : fixedBody = 3 := rfl
@[simp] theorem payloadOff_eq : payloadOff = 6 := rfl
@[simp] theorem maxl_eq : maxl = 60 := rfl
@[simp] theorem maxp_eq : maxp = 57 := rfl

end Sys2Proof
end

