-- ==== Sys2Proof/Laws/State.lean ====
section
/-!
SUPPORT. What each update of the state leaves in each field: one lemma a field and an update, so that no
later proof unfolds an update. The two readings of a state (`count`, `load`) follow the fields.
-/

namespace Sys2Proof.Machine

/-! ### clearResults -/

@[simp] theorem State.clearResults_buf (s : State) : s.clearResults.buf = s.buf := rfl
@[simp] theorem State.clearResults_cnt (s : State) : s.clearResults.cnt = s.cnt := rfl
@[simp] theorem State.clearResults_status (s : State) : s.clearResults.status = .stNone := rfl
@[simp] theorem State.clearResults_rcode (s : State) : s.clearResults.rcode = 0x00 := rfl
@[simp] theorem State.clearResults_plen (s : State) : s.clearResults.plen = 0 := rfl
@[simp] theorem State.clearResults_ovf (s : State) : s.clearResults.ovf = s.ovf := rfl
@[simp] theorem State.clearResults_inbox (s : State) : s.clearResults.inbox = s.inbox := rfl
@[simp] theorem State.clearResults_rsp (s : State) : s.clearResults.rsp = s.rsp := rfl

/-! ### append -/

@[simp] theorem State.append_buf (s : State) (b : Byte) : (s.append b).buf = s.buf.write s.count b := rfl
@[simp] theorem State.append_cnt (s : State) (b : Byte) : (s.append b).cnt = BitVec.ofNat 7 (s.count + 1) := rfl
@[simp] theorem State.append_status (s : State) (b : Byte) : (s.append b).status = s.status := rfl
@[simp] theorem State.append_rcode (s : State) (b : Byte) : (s.append b).rcode = s.rcode := rfl
@[simp] theorem State.append_plen (s : State) (b : Byte) : (s.append b).plen = s.plen := rfl
@[simp] theorem State.append_ovf (s : State) (b : Byte) : (s.append b).ovf = s.ovf := rfl
@[simp] theorem State.append_inbox (s : State) (b : Byte) : (s.append b).inbox = s.inbox := rfl
@[simp] theorem State.append_rsp (s : State) (b : Byte) : (s.append b).rsp = s.rsp := rfl

/-! ### setOvf -/

@[simp] theorem State.setOvf_buf (s : State) : s.setOvf.buf = s.buf := rfl
@[simp] theorem State.setOvf_cnt (s : State) : s.setOvf.cnt = s.cnt := rfl
@[simp] theorem State.setOvf_status (s : State) : s.setOvf.status = s.status := rfl
@[simp] theorem State.setOvf_rcode (s : State) : s.setOvf.rcode = s.rcode := rfl
@[simp] theorem State.setOvf_plen (s : State) : s.setOvf.plen = s.plen := rfl
@[simp] theorem State.setOvf_ovf (s : State) : s.setOvf.ovf = true := rfl
@[simp] theorem State.setOvf_inbox (s : State) : s.setOvf.inbox = s.inbox := rfl
@[simp] theorem State.setOvf_rsp (s : State) : s.setOvf.rsp = s.rsp := rfl

/-! ### clearBlock -/

@[simp] theorem State.clearBlock_buf (s : State) : s.clearBlock.buf = [] := rfl
@[simp] theorem State.clearBlock_cnt (s : State) : s.clearBlock.cnt = 0 := rfl
@[simp] theorem State.clearBlock_status (s : State) : s.clearBlock.status = .stNone := rfl
@[simp] theorem State.clearBlock_rcode (s : State) : s.clearBlock.rcode = 0x00 := rfl
@[simp] theorem State.clearBlock_plen (s : State) : s.clearBlock.plen = 0 := rfl
@[simp] theorem State.clearBlock_ovf (s : State) : s.clearBlock.ovf = false := rfl
@[simp] theorem State.clearBlock_inbox (s : State) : s.clearBlock.inbox = s.inbox := rfl
@[simp] theorem State.clearBlock_rsp (s : State) : s.clearBlock.rsp = s.rsp := rfl

/-! ### respond -/

@[simp] theorem State.respond_buf (s : State) (a : Answer) : (s.respond a).buf = s.buf := rfl
@[simp] theorem State.respond_cnt (s : State) (a : Answer) : (s.respond a).cnt = s.cnt := rfl
@[simp] theorem State.respond_status (s : State) (a : Answer) : (s.respond a).status = s.status := rfl
@[simp] theorem State.respond_rcode (s : State) (a : Answer) : (s.respond a).rcode = s.rcode := rfl
@[simp] theorem State.respond_plen (s : State) (a : Answer) : (s.respond a).plen = s.plen := rfl
@[simp] theorem State.respond_ovf (s : State) (a : Answer) : (s.respond a).ovf = s.ovf := rfl
@[simp] theorem State.respond_inbox (s : State) (a : Answer) : (s.respond a).inbox = s.inbox := rfl
@[simp] theorem State.respond_rsp (s : State) (a : Answer) : (s.respond a).rsp = some a.word := rfl

/-! ### writeVerdict -/

@[simp] theorem State.writeVerdict_buf (s : State) (v : Verdict) : (s.writeVerdict v).buf = s.buf := rfl
@[simp] theorem State.writeVerdict_cnt (s : State) (v : Verdict) : (s.writeVerdict v).cnt = s.cnt := rfl
@[simp] theorem State.writeVerdict_status (s : State) (v : Verdict) : (s.writeVerdict v).status = v.status := rfl
@[simp] theorem State.writeVerdict_rcode (s : State) (v : Verdict) : (s.writeVerdict v).rcode = v.rcode := rfl
@[simp] theorem State.writeVerdict_plen (s : State) (v : Verdict) : (s.writeVerdict v).plen = BitVec.ofNat 6 v.plen := rfl
@[simp] theorem State.writeVerdict_ovf (s : State) (v : Verdict) : (s.writeVerdict v).ovf = s.ovf := rfl
@[simp] theorem State.writeVerdict_inbox (s : State) (v : Verdict) : (s.writeVerdict v).inbox = s.inbox := rfl
@[simp] theorem State.writeVerdict_rsp (s : State) (v : Verdict) : (s.writeVerdict v).rsp = s.rsp := rfl

/-! ### pushByte -/

@[simp] theorem State.pushByte_buf (s : State) (b : Byte) : (s.pushByte b).buf = s.buf.write s.count b := rfl
@[simp] theorem State.pushByte_cnt (s : State) (b : Byte) : (s.pushByte b).cnt = BitVec.ofNat 7 (s.count + 1) := rfl
@[simp] theorem State.pushByte_status (s : State) (b : Byte) : (s.pushByte b).status = .stNone := rfl
@[simp] theorem State.pushByte_rcode (s : State) (b : Byte) : (s.pushByte b).rcode = 0x00 := rfl
@[simp] theorem State.pushByte_plen (s : State) (b : Byte) : (s.pushByte b).plen = 0 := rfl
@[simp] theorem State.pushByte_ovf (s : State) (b : Byte) : (s.pushByte b).ovf = s.ovf := rfl
@[simp] theorem State.pushByte_inbox (s : State) (b : Byte) : (s.pushByte b).inbox = s.inbox := rfl
@[simp] theorem State.pushByte_rsp (s : State) (b : Byte) : (s.pushByte b).rsp = some (Answer.value ((BitVec.ofNat 7 (s.count + 1)).setWidth 8)).word := rfl

/-! ### pushFull -/

@[simp] theorem State.pushFull_buf (s : State) : s.pushFull.buf = s.buf := rfl
@[simp] theorem State.pushFull_cnt (s : State) : s.pushFull.cnt = s.cnt := rfl
@[simp] theorem State.pushFull_status (s : State) : s.pushFull.status = s.status := rfl
@[simp] theorem State.pushFull_rcode (s : State) : s.pushFull.rcode = s.rcode := rfl
@[simp] theorem State.pushFull_plen (s : State) : s.pushFull.plen = s.plen := rfl
@[simp] theorem State.pushFull_ovf (s : State) : s.pushFull.ovf = true := rfl
@[simp] theorem State.pushFull_inbox (s : State) : s.pushFull.inbox = s.inbox := rfl
@[simp] theorem State.pushFull_rsp (s : State) : s.pushFull.rsp = some (Answer.refuse .eFull).word := rfl

/-! ### taken -/

@[simp] theorem State.taken_buf (s : State) (rest : List HostEvent) : (s.taken rest).buf = s.buf := rfl
@[simp] theorem State.taken_cnt (s : State) (rest : List HostEvent) : (s.taken rest).cnt = s.cnt := rfl
@[simp] theorem State.taken_status (s : State) (rest : List HostEvent) : (s.taken rest).status = s.status := rfl
@[simp] theorem State.taken_rcode (s : State) (rest : List HostEvent) : (s.taken rest).rcode = s.rcode := rfl
@[simp] theorem State.taken_plen (s : State) (rest : List HostEvent) : (s.taken rest).plen = s.plen := rfl
@[simp] theorem State.taken_ovf (s : State) (rest : List HostEvent) : (s.taken rest).ovf = s.ovf := rfl
@[simp] theorem State.taken_inbox (s : State) (rest : List HostEvent) : (s.taken rest).inbox = rest := rfl
@[simp] theorem State.taken_rsp (s : State) (rest : List HostEvent) : (s.taken rest).rsp = s.rsp := rfl

/-! ### issue -/

@[simp] theorem State.issue_buf (s : State) (cw : CommandWord) : (s.issue cw).buf = s.buf := rfl
@[simp] theorem State.issue_cnt (s : State) (cw : CommandWord) : (s.issue cw).cnt = s.cnt := rfl
@[simp] theorem State.issue_status (s : State) (cw : CommandWord) : (s.issue cw).status = s.status := rfl
@[simp] theorem State.issue_rcode (s : State) (cw : CommandWord) : (s.issue cw).rcode = s.rcode := rfl
@[simp] theorem State.issue_plen (s : State) (cw : CommandWord) : (s.issue cw).plen = s.plen := rfl
@[simp] theorem State.issue_ovf (s : State) (cw : CommandWord) : (s.issue cw).ovf = s.ovf := rfl
@[simp] theorem State.issue_inbox (s : State) (cw : CommandWord) : (s.issue cw).inbox = .command cw :: s.inbox := rfl
@[simp] theorem State.issue_rsp (s : State) (cw : CommandWord) : (s.issue cw).rsp = s.rsp := rfl

/-! ### resetEvent -/

@[simp] theorem resetEvent_buf (s : State) : (resetEvent s).buf = [] := rfl
@[simp] theorem resetEvent_cnt (s : State) : (resetEvent s).cnt = 0 := rfl
@[simp] theorem resetEvent_status (s : State) : (resetEvent s).status = .stNone := rfl
@[simp] theorem resetEvent_rcode (s : State) : (resetEvent s).rcode = 0x00 := rfl
@[simp] theorem resetEvent_plen (s : State) : (resetEvent s).plen = 0 := rfl
@[simp] theorem resetEvent_ovf (s : State) : (resetEvent s).ovf = false := rfl
@[simp] theorem resetEvent_inbox (s : State) : (resetEvent s).inbox = s.inbox := rfl
@[simp] theorem resetEvent_rsp (s : State) : (resetEvent s).rsp = none := rfl

/-! ### Readings -/

@[simp] theorem State.clearResults_count (s : State) : s.clearResults.count = s.count := rfl
@[simp] theorem State.clearResults_load (s : State) : s.clearResults.load = s.load := rfl
@[simp] theorem State.append_payloadLen (s : State) (b : Byte) : (s.append b).payloadLen = s.payloadLen := rfl
@[simp] theorem State.setOvf_count (s : State) : s.setOvf.count = s.count := rfl
@[simp] theorem State.setOvf_load (s : State) : s.setOvf.load = s.load := rfl
@[simp] theorem State.setOvf_payloadLen (s : State) : s.setOvf.payloadLen = s.payloadLen := rfl
@[simp] theorem State.respond_count (s : State) (a : Answer) : (s.respond a).count = s.count := rfl
@[simp] theorem State.respond_load (s : State) (a : Answer) : (s.respond a).load = s.load := rfl
@[simp] theorem State.respond_payloadLen (s : State) (a : Answer) : (s.respond a).payloadLen = s.payloadLen := rfl
@[simp] theorem State.writeVerdict_count (s : State) (v : Verdict) : (s.writeVerdict v).count = s.count := rfl
@[simp] theorem State.writeVerdict_load (s : State) (v : Verdict) : (s.writeVerdict v).load = s.load := rfl
@[simp] theorem State.pushFull_count (s : State) : s.pushFull.count = s.count := rfl
@[simp] theorem State.pushFull_load (s : State) : s.pushFull.load = s.load := rfl
@[simp] theorem State.pushFull_payloadLen (s : State) : s.pushFull.payloadLen = s.payloadLen := rfl
@[simp] theorem State.taken_count (s : State) (rest : List HostEvent) : (s.taken rest).count = s.count := rfl
@[simp] theorem State.taken_load (s : State) (rest : List HostEvent) : (s.taken rest).load = s.load := rfl
@[simp] theorem State.taken_payloadLen (s : State) (rest : List HostEvent) : (s.taken rest).payloadLen = s.payloadLen := rfl
@[simp] theorem State.issue_count (s : State) (cw : CommandWord) : (s.issue cw).count = s.count := rfl
@[simp] theorem State.issue_load (s : State) (cw : CommandWord) : (s.issue cw).load = s.load := rfl
@[simp] theorem State.issue_payloadLen (s : State) (cw : CommandWord) : (s.issue cw).payloadLen = s.payloadLen := rfl

@[simp] theorem State.clearBlock_count (s : State) : s.clearBlock.count = 0 := rfl
@[simp] theorem resetEvent_count (s : State) : (resetEvent s).count = 0 := rfl
@[simp] theorem State.clearBlock_load (s : State) : s.clearBlock.load = fun _ => none := rfl
@[simp] theorem resetEvent_load (s : State) : (resetEvent s).load = fun _ => none := rfl

/-- Below the capacity the new count does not wrap (00_scope.md R6; 41_validate.md R108). -/
theorem State.append_count (s : State) (b : Byte) (h : s.count < 64) :
    (s.append b).count = s.count + 1 := by
  simp [State.count, State.append]; unfold State.count at h; omega

/-- A successful `PUSH` raises the count by one. -/
theorem State.pushByte_count (s : State) (b : Byte) (h : s.count < 64) :
    (s.pushByte b).count = s.count + 1 :=
  s.append_count b h

/-- The response of an answer is the only field `respond` changes, so a later response replaces an earlier
one. -/
@[simp] theorem State.respond_respond (s : State) (a a' : Answer) :
    (s.respond a).respond a' = s.respond a' := rfl

/-- `CLR` after `CLR` changes nothing (40_intake.md R81). -/
@[simp] theorem State.clearBlock_clearBlock (s : State) : s.clearBlock.clearBlock = s.clearBlock := rfl

end Sys2Proof.Machine
end

