-- ==== Sys2Proof/Laws/Ops.lean ====
section
/-!
SUPPORT. What each shared operation can do: the response words, the answers of reading commands, the
checksum function, the flags and the register reads.
-/

namespace Sys2Proof.Machine

/-! ### Responses -/

@[simp] theorem Answer.word_value (v : Byte) : (Answer.value v).word = v.setWidth 16 := rfl
@[simp] theorem Answer.word_eIll : (Answer.refuse .eIll).word = 0x8001#16 := rfl
@[simp] theorem Answer.word_eFull : (Answer.refuse .eFull).word = 0x8002#16 := rfl
@[simp] theorem Answer.word_eIdx : (Answer.refuse .eIdx).word = 0x8003#16 := rfl
@[simp] theorem Answer.word_eReg : (Answer.refuse .eReg).word = 0x8004#16 := rfl
@[simp] theorem Answer.word_eNoval : (Answer.refuse .eNoval).word = 0x8005#16 := rfl

/-- A response is the value with `ERR` clear, or one of the five refusal words. -/
theorem Answer.word_cases (a : Answer) :
    (∃ v : Byte, a = .value v ∧ a.word = v.setWidth 16) ∨
      ∃ e, a = .refuse e ∧ a.word = 0x8000#16 ||| e.code.setWidth 16 := by
  cases a with
  | value v => exact .inl ⟨v, rfl, rfl⟩
  | refuse e => exact .inr ⟨e, rfl, rfl⟩

/-- All that answering a read can do: the response word is written and nothing else. -/
theorem State.answer_next {s t : State} {a : Option Answer} :
    s.answer a = .next t ↔ ∃ x, a = some x ∧ t = s.respond x := by
  cases a with
  | none => simp [State.answer]
  | some x => simp [State.answer, eq_comm]

@[simp] theorem State.answer_some (s : State) (x : Answer) :
    s.answer (some x) = .next (s.respond x) := rfl

@[simp] theorem State.answer_none (s : State) : s.answer none = .fault .noValue := rfl

/-! ### The checksum function -/

/-- An empty range (41_validate.md R90). -/
@[simp] theorem xor8_empty (B : Nat → Option Byte) (a b : Nat) (h : b ≤ a) :
    xor8 B a b = some 0x00 := by
  cases b with
  | zero => rfl
  | succ b => simp only [xor8, if_pos h]

/-- The last byte of a range (41_validate.md R90). -/
theorem xor8_succ (B : Nat → Option Byte) (a b : Nat) (h : a ≤ b) :
    xor8 B a (b + 1) = (xor8 B a b).bind fun x => (B b).map (x ^^^ ·) := by
  rw [xor8, if_neg (by omega)]
  cases xor8 B a b <;> cases B b <;> rfl

/-- A range reads only its own bytes. -/
theorem xor8_congr (B B' : Nat → Option Byte) (a b : Nat) (h : ∀ i, a ≤ i → i < b → B i = B' i) :
    xor8 B a b = xor8 B' a b := by
  induction b with
  | zero => rfl
  | succ b ih =>
    by_cases hab : a ≤ b
    · rw [xor8_succ _ _ _ hab, xor8_succ _ _ _ hab, h b hab (by omega),
        ih fun i h1 h2 => h i h1 (by omega)]
    · rw [xor8_empty _ _ _ (by omega), xor8_empty _ _ _ (by omega)]

/-- The result exists where every byte in range holds a value (41_validate.md R90). -/
theorem xor8_isSome (B : Nat → Option Byte) (a b : Nat)
    (h : ∀ i, a ≤ i → i < b → ∃ x, B i = some x) : ∃ x, xor8 B a b = some x := by
  induction b with
  | zero => exact ⟨_, rfl⟩
  | succ b ih =>
    by_cases hab : a ≤ b
    · obtain ⟨x, hx⟩ := ih fun i h1 h2 => h i h1 (by omega)
      obtain ⟨y, hy⟩ := h b hab (by omega)
      exact ⟨x ^^^ y, by simp [xor8_succ _ _ _ hab, hx, hy]⟩
    · exact ⟨_, xor8_empty _ _ _ (by omega)⟩

/-! ### Flags -/

/-- `HDROK` where the bytes it needs hold a value. -/
theorem hdrok_isSome (B : Nat → Option Byte) (n : Nat) (h : ∀ i, i < n → ∃ x, B i = some x) :
    ∃ x, hdrok B n = some x := by
  unfold hdrok
  split
  · exact ⟨_, rfl⟩
  · obtain ⟨x, hx⟩ := h 0 (by omega)
    obtain ⟨y, hy⟩ := h 1 (by omega)
    exact ⟨_, by simp [hx, hy]; rfl⟩

/-- `COMPLETE` where the byte it needs holds a value. -/
theorem complete_isSome (B : Nat → Option Byte) (n : Nat) (h : ∀ i, i < n → ∃ x, B i = some x) :
    ∃ x, complete B n = some x := by
  unfold complete
  split
  · exact ⟨_, rfl⟩
  · obtain ⟨x, hx⟩ := h 2 (by omega)
    exact ⟨_, by simp [hx]; rfl⟩

/-- The flags read only bytes below `n`. -/
theorem hdrok_congr (B B' : Nat → Option Byte) (n : Nat) (h : ∀ i, i < n → B i = B' i) :
    hdrok B n = hdrok B' n := by
  unfold hdrok
  split
  · rfl
  · rw [h 0 (by omega), h 1 (by omega)]

/-- The flags read only bytes below `n`. -/
theorem complete_congr (B B' : Nat → Option Byte) (n : Nat) (h : ∀ i, i < n → B i = B' i) :
    complete B n = complete B' n := by
  unfold complete
  split
  · rfl
  · rw [h 2 (by omega)]

/-! ### Register reads -/

/-- A register read depends on the six elements and on the buffer below `CNT` only. -/
theorem State.readReg_congr (s s' : State) (r : Reg) (hc : s'.cnt = s.cnt)
    (hst : s'.status = s.status) (hr : s'.rcode = s.rcode) (hp : s'.plen = s.plen)
    (ho : s'.ovf = s.ovf) (hb : ∀ i, i < s.count → s'.load i = s.load i) :
    s'.readReg r = s.readReg r := by
  have hn : s'.count = s.count := congrArg BitVec.toNat hc
  cases r with
  | status => simp [State.readReg, hst]
  | cnt => simp [State.readReg, hc]
  | rcode => simp [State.readReg, hr]
  | plen => simp [State.readReg, hp]
  | csum =>
    simp only [State.readReg, State.csum, hn]
    rw [xor8_congr s'.load s.load 0 s.count fun i _ h => hb i h]
  | len =>
    simp only [State.readReg, hn]
    split
    · rw [hb 2 (by omega)]
    · rfl
  | flags =>
    simp only [State.readReg, State.flags, hn, ho]
    rw [hdrok_congr s'.load s.load s.count hb, complete_congr s'.load s.load s.count hb]
  | reserved n => rfl

/-- A register read has an answer where every byte below `CNT` holds a value. -/
theorem State.readReg_isSome (s : State) (r : Reg) (h : ∀ i, i < s.count → ∃ x, s.load i = some x) :
    ∃ a, s.readReg r = some a := by
  cases r with
  | status => exact ⟨_, rfl⟩
  | cnt => exact ⟨_, rfl⟩
  | rcode => exact ⟨_, rfl⟩
  | plen => exact ⟨_, rfl⟩
  | csum =>
    obtain ⟨x, hx⟩ := xor8_isSome s.load 0 s.count fun i _ hi => h i hi
    exact ⟨.value x, by simp [State.readReg, State.csum, hx]⟩
  | len =>
    simp only [State.readReg]
    split
    · obtain ⟨x, hx⟩ := h 2 (by omega)
      exact ⟨.value x, by simp [hx]⟩
    · exact ⟨_, rfl⟩
  | flags =>
    obtain ⟨x, hx⟩ := hdrok_isSome s.load s.count h
    obtain ⟨y, hy⟩ := complete_isSome s.load s.count h
    exact ⟨_, by simp [State.readReg, State.flags, hx, hy]; rfl⟩
  | reserved n => exact ⟨_, rfl⟩

end Sys2Proof.Machine
end

