-- ==== Sys2Proof/Laws/Validate.lean ====
section
/-!
SUPPORT. Everything `DecodeReply` can answer (41_validate.md R92), once, so that no later proof unfolds it.
-/

namespace Sys2Proof.Machine

@[simp] theorem Verdict.error_status (st : Status) : (Verdict.error st).status = st := rfl
@[simp] theorem Verdict.error_rcode (st : Status) : (Verdict.error st).rcode = 0x00 := rfl
@[simp] theorem Verdict.error_plen (st : Status) : (Verdict.error st).plen = 0 := rfl

/-- Checks 3 to 6 and step 7: the five verdicts, each with what made it. -/
theorem decodeBody_cases {e : Byte} {B : Nat → Option Byte} {l : Nat} {v : Verdict}
    (h : decodeBody e B l = some v) :
    ∃ m, B 3 = some m ∧
      ((m ≠ 0x02#8 ∧ v = .error .stFormat) ∨
      (m = 0x02#8 ∧ ∃ rc, B 4 = some rc ∧
        ((rc ≠ 0x00#8 ∧ v = ⟨.stResult, rc, 0⟩) ∨
        (rc = 0x00#8 ∧ ∃ o, B 5 = some o ∧
          ((o ≠ e ∧ v = .error .stCommand) ∨
          (o = e ∧ ∃ sum c, xor8 B 0 (l + 3) = some sum ∧ B (l + 3) = some c ∧
            ((sum ≠ c ∧ v = .error .stChecksum) ∨
            (sum = c ∧ v = ⟨.stOk, 0x00, l - 3⟩)))))))) := by
  unfold decodeBody at h
  obtain ⟨m, hm, h⟩ := Option.bind_eq_some_iff.1 h
  refine ⟨m, hm, ?_⟩
  by_cases hm2 : m = 0x02#8
  case neg => exact .inl ⟨hm2, by simpa [hm2, eq_comm] using h⟩
  simp only [fpcv_marker, hm2, ne_eq, not_true, ite_false] at h
  obtain ⟨rc, hrc, h⟩ := Option.bind_eq_some_iff.1 h
  refine .inr ⟨hm2, rc, hrc, ?_⟩
  by_cases hr0 : rc = 0x00#8
  case neg => exact .inl ⟨hr0, by simpa [hr0, eq_comm] using h⟩
  simp only [fpcv_rcSuccess, hr0, not_true, ite_false] at h
  obtain ⟨o, ho, h⟩ := Option.bind_eq_some_iff.1 h
  refine .inr ⟨hr0, o, ho, ?_⟩
  by_cases hoe : o = e
  case neg => exact .inl ⟨hoe, by simpa [hoe, eq_comm] using h⟩
  simp only [hoe, not_true, ite_false] at h
  obtain ⟨sum, hs, h⟩ := Option.bind_eq_some_iff.1 h
  obtain ⟨c, hc, h⟩ := Option.bind_eq_some_iff.1 h
  refine .inr ⟨hoe, sum, c, hs, hc, ?_⟩
  by_cases hsc : sum = c
  case neg => exact .inl ⟨hsc, by simpa [hsc, eq_comm] using h⟩
  exact .inr ⟨hsc, by simpa [hsc, eq_comm] using h⟩

/-- Checks 1 and 2, and where they passed the verdict of the rest. -/
theorem decodeReply_cases {e : Byte} {B : Nat → Option Byte} {n : Nat} {v : Verdict}
    (h : decodeReply e B n = some v) :
    (v = .error .stHeader ∧ (n < 2 ∨ B 0 ≠ some 0x6F#8 ∨ B 1 ≠ some 0x37#8)) ∨
    (2 ≤ n ∧ B 0 = some 0x6F#8 ∧ B 1 = some 0x37#8 ∧
      ((v = .error .stLength ∧
          (n = 2 ∨ 3 ≤ n ∧ ∃ l : Byte, B 2 = some l ∧ (l.toNat + 4 ≠ n ∨ l.toNat < 3))) ∨
      ∃ l : Byte, B 2 = some l ∧ l.toNat + 4 = n ∧ 3 ≤ l.toNat ∧
        decodeBody e B l.toNat = some v)) := by
  unfold decodeReply at h
  by_cases hn : n < 2
  · exact .inl ⟨by simpa [hn, eq_comm] using h, .inl hn⟩
  rw [if_neg hn] at h
  obtain ⟨b0, h0, h⟩ := Option.bind_eq_some_iff.1 h
  by_cases e0 : b0 = 0x6F#8
  case neg => exact .inl ⟨by simpa [e0, eq_comm] using h, .inr (.inl (by simpa [h0] using e0))⟩
  simp only [fpcv_rh0, e0, ne_eq, not_true, ite_false] at h
  obtain ⟨b1, h1, h⟩ := Option.bind_eq_some_iff.1 h
  by_cases e1 : b1 = 0x37#8
  case neg => exact .inl ⟨by simpa [e1, eq_comm] using h, .inr (.inr (by simpa [h1] using e1))⟩
  simp only [fpcv_rh1, e1, not_true, ite_false] at h
  refine .inr ⟨by omega, e0 ▸ h0, e1 ▸ h1, ?_⟩
  by_cases hn3 : n < 3
  · exact .inl ⟨by simpa [hn3, eq_comm] using h, .inl (by omega)⟩
  rw [if_neg hn3] at h
  obtain ⟨l, h2, h⟩ := Option.bind_eq_some_iff.1 h
  by_cases hl : l.toNat + 4 = n
  case neg =>
    exact .inl ⟨by simpa [hl, eq_comm] using h, .inr ⟨by omega, l, h2, .inl hl⟩⟩
  by_cases hl3 : l.toNat < 3
  · exact .inl ⟨by simpa [hl, hl3, eq_comm] using h, .inr ⟨by omega, l, h2, .inr hl3⟩⟩
  exact .inr ⟨l, h2, hl, by omega, by simpa [hl, hl3] using h⟩

/-- Checks 3 to 6 reach a verdict where the bytes they read hold a value. -/
theorem decodeBody_isSome (e : Byte) (B : Nat → Option Byte) (l : Nat)
    (h : ∀ i, i < l + 4 → ∃ x, B i = some x) (hl : 3 ≤ l) : ∃ v, decodeBody e B l = some v := by
  obtain ⟨m, hm⟩ := h 3 (by omega)
  obtain ⟨rc, hrc⟩ := h 4 (by omega)
  obtain ⟨o, ho⟩ := h 5 (by omega)
  obtain ⟨c, hc⟩ := h (l + 3) (by omega)
  obtain ⟨x, hx⟩ := xor8_isSome B 0 (l + 3) fun i _ hi => h i (by omega)
  simp only [decodeBody, hm, hrc, ho, hc, hx, Option.bind_eq_bind, Option.bind_some]
  repeat' split
  all_goals exact ⟨_, rfl⟩

/-- `DecodeReply` is total where every byte below `n` holds a value (41_validate.md R92). -/
theorem decodeReply_isSome (e : Byte) (B : Nat → Option Byte) (n : Nat)
    (h : ∀ i, i < n → ∃ x, B i = some x) : ∃ v, decodeReply e B n = some v := by
  unfold decodeReply
  split
  · exact ⟨_, rfl⟩
  rename_i hn
  obtain ⟨b0, h0⟩ := h 0 (by omega)
  obtain ⟨b1, h1⟩ := h 1 (by omega)
  simp only [h0, h1, Option.bind_eq_bind, Option.bind_some]
  split
  · exact ⟨_, rfl⟩
  split
  · exact ⟨_, rfl⟩
  split
  · exact ⟨_, rfl⟩
  obtain ⟨l, h2⟩ := h 2 (by omega)
  simp only [h2, Option.bind_some]
  split
  · exact ⟨_, rfl⟩
  split
  · exact ⟨_, rfl⟩
  rename_i hl hl3
  simp only [overhead_eq, fixedBody_eq, ne_eq, not_not, not_lt] at hl hl3
  exact decodeBody_isSome e B l.toNat (fun i hi => h i (by omega)) hl3

/-- A verdict is never `ST_NONE` (41_validate.md R92, R106). -/
theorem decodeReply_ne_none {e : Byte} {B : Nat → Option Byte} {n : Nat} {v : Verdict}
    (h : decodeReply e B n = some v) : v.status ≠ .stNone := by
  rcases decodeReply_cases h with ⟨rfl, -⟩ | ⟨-, -, -, ⟨rfl, -⟩ | ⟨l, -, -, -, hb⟩⟩
  · simp
  · simp
  · obtain ⟨m, -, ⟨-, rfl⟩ | ⟨-, rc, -, ⟨-, rfl⟩ | ⟨-, o, -, ⟨-, rfl⟩ | ⟨-, x, c, -, -, hx⟩⟩⟩⟩ :=
      decodeBody_cases hb
    · simp
    · simp
    · simp
    · rcases hx with ⟨-, rfl⟩ | ⟨-, rfl⟩ <;> simp

/-- The payload length of a verdict fits `PLEN` on a buffer of at most 64 bytes (10_state.md R15). -/
theorem decodeReply_plen_le {e : Byte} {B : Nat → Option Byte} {n : Nat} {v : Verdict}
    (h : decodeReply e B n = some v) (hn : n ≤ 64) : v.plen ≤ 57 := by
  rcases decodeReply_cases h with ⟨rfl, -⟩ | ⟨-, -, -, ⟨rfl, -⟩ | ⟨l, -, hl, -, hb⟩⟩
  · simp
  · simp
  · obtain ⟨m, -, ⟨-, rfl⟩ | ⟨-, rc, -, ⟨-, rfl⟩ | ⟨-, o, -, ⟨-, rfl⟩ | ⟨-, x, c, -, -, hx⟩⟩⟩⟩ :=
      decodeBody_cases hb
    · simp
    · simp
    · simp
    · rcases hx with ⟨-, rfl⟩ | ⟨-, rfl⟩
      · simp
      · dsimp only; omega

end Sys2Proof.Machine
end

