-- ==== Sys2Proof/Laws/Exec.lean ====
section
/-!
SUPPORT. What each meaning can do: one lemma a command, saying every next state it can answer. Provers cite
these and unfold no meaning.
-/

namespace Sys2Proof.Machine

/-- `NOP`. -/
theorem exec_nop (s : State) : exec .nop s = .next (s.respond (.value 0x00)) := rfl

/-- `CLR`. -/
theorem exec_clr (s : State) : exec .clr s = .next (s.clearBlock.respond (.value 0x00)) := rfl

/-- `PUSH`, buffer not full. -/
theorem exec_push_of_lt (s : State) (b : Byte) (h : s.count < 64) :
    exec (.push b) s = .next (s.pushByte b) := if_pos h

/-- `PUSH`, buffer full. -/
theorem exec_push_of_le (s : State) (b : Byte) (h : 64 ≤ s.count) :
    exec (.push b) s = .next s.pushFull := if_neg (by simpa using h)

/-- Both outcomes of `PUSH`. -/
theorem exec_push_next {s t : State} {b : Byte} (h : exec (.push b) s = .next t) :
    (s.count < 64 ∧ t = s.pushByte b) ∨ (64 ≤ s.count ∧ t = s.pushFull) := by
  by_cases hc : s.count < 64
  · rw [exec_push_of_lt s b hc] at h
    exact .inl ⟨hc, by simpa [eq_comm] using h⟩
  · rw [exec_push_of_le s b (by omega)] at h
    exact .inr ⟨by omega, by simpa [eq_comm] using h⟩

/-- `VAL` with its verdict. -/
theorem exec_val_of_verdict {s : State} {e : Byte} {v : Verdict}
    (h : decodeReply e s.load s.count = some v) :
    exec (.val e) s =
      .next ((s.writeVerdict v).respond (.value (v.status.code.setWidth 8))) := by
  show execVal e s = _
  simp [execVal, h]

/-- All that `VAL` can do. -/
theorem exec_val_next {s t : State} {e : Byte} (h : exec (.val e) s = .next t) :
    ∃ v, decodeReply e s.load s.count = some v ∧
      t = (s.writeVerdict v).respond (.value (v.status.code.setWidth 8)) := by
  change execVal e s = _ at h
  unfold execVal at h
  split at h
  · exact ⟨_, ‹_›, by simpa [eq_comm] using h⟩
  · cases h

/-- All that `RDP` can do. -/
theorem exec_rdp_next {s t : State} {i : Byte} (h : exec (.rdp i) s = .next t) :
    (s.status = .stOk ∧ i.toNat < s.payloadLen ∧
        ∃ b, s.load (6 + i.toNat) = some b ∧ t = s.respond (.value b)) ∨
      (¬(s.status = .stOk ∧ i.toNat < s.payloadLen) ∧ t = s.respond (.refuse .eIdx)) := by
  change execRdp i s = _ at h
  unfold execRdp at h
  split at h
  · rename_i hc
    obtain ⟨x, hx, rfl⟩ := State.answer_next.1 h
    obtain ⟨b, hb, rfl⟩ := Option.map_eq_some_iff.1 hx
    exact .inl ⟨hc.1, hc.2, b, hb, rfl⟩
  · rename_i hc
    obtain ⟨x, hx, rfl⟩ := State.answer_next.1 h
    cases hx
    exact .inr ⟨hc, rfl⟩

/-- All that `RDB` can do. -/
theorem exec_rdb_next {s t : State} {i : Byte} (h : exec (.rdb i) s = .next t) :
    (i.toNat < s.count ∧ ∃ b, s.load i.toNat = some b ∧ t = s.respond (.value b)) ∨
      (s.count ≤ i.toNat ∧ t = s.respond (.refuse .eIdx)) := by
  change execRdb i s = _ at h
  unfold execRdb bufferIndex at h
  split at h
  · rename_i hc
    obtain ⟨x, hx, rfl⟩ := State.answer_next.1 h
    obtain ⟨b, hb, rfl⟩ := Option.map_eq_some_iff.1 hx
    exact .inl ⟨hc, b, hb, rfl⟩
  · rename_i hc
    obtain ⟨x, hx, rfl⟩ := State.answer_next.1 h
    cases hx
    exact .inr ⟨by omega, rfl⟩

/-- All that `RDR` can do. -/
theorem exec_rdr_next {s t : State} {r : Reg} (h : exec (.rdr r) s = .next t) :
    ∃ a, s.readReg r = some a ∧ t = s.respond a :=
  State.answer_next.1 h

/-- An answer overwrites the response word of an earlier transaction. -/
@[simp] theorem State.answer_respond (s : State) (a : Answer) (x : Option Answer) :
    (s.respond a).answer x = s.answer x := by cases x <;> rfl

/-- No command sees the response word of an earlier transaction (10_state.md R21). -/
theorem exec_respond (i : Instr) (s : State) (a : Answer) : exec i (s.respond a) = exec i s := by
  cases i with
  | nop => rfl
  | clr => rfl
  | push b => rfl
  | val e =>
    show execVal e _ = execVal e _
    simp only [execVal, State.respond_load, State.respond_count]
    cases decodeReply e s.load s.count <;> rfl
  | rdp i =>
    show execRdp i _ = execRdp i _
    simp only [execRdp, State.answer_respond, State.respond_status, State.respond_payloadLen,
      State.respond_load]
  | rdb i =>
    show execRdb i _ = execRdb i _
    simp only [execRdb, State.answer_respond, State.respond_count, State.respond_load]
  | rdr r =>
    show (s.respond a).answer _ = s.answer _
    rw [State.answer_respond]
    exact congrArg s.answer
      (s.readReg_congr (s.respond a) r rfl rfl rfl rfl rfl fun _ _ => rfl)

/-- Every command that answers a next state returns a response word. -/
theorem exec_next_rsp {s t : State} {i : Instr} (h : exec i s = .next t) :
    ∃ a : Answer, t.rsp = some a.word := by
  cases i with
  | nop => cases h; exact ⟨_, rfl⟩
  | clr => cases h; exact ⟨_, rfl⟩
  | push b => rcases exec_push_next h with ⟨-, rfl⟩ | ⟨-, rfl⟩ <;> exact ⟨_, rfl⟩
  | val e => obtain ⟨v, -, rfl⟩ := exec_val_next h; exact ⟨_, rfl⟩
  | rdp i => rcases exec_rdp_next h with ⟨-, -, b, -, rfl⟩ | ⟨-, rfl⟩ <;> exact ⟨_, rfl⟩
  | rdb i => rcases exec_rdb_next h with ⟨-, b, -, rfl⟩ | ⟨-, rfl⟩ <;> exact ⟨_, rfl⟩
  | rdr r => obtain ⟨a, -, rfl⟩ := exec_rdr_next h; exact ⟨_, rfl⟩

/-- No command but those of the host port takes an event: the host's pending events stay. -/
theorem exec_next_inbox {s t : State} {i : Instr} (h : exec i s = .next t) : t.inbox = s.inbox := by
  cases i with
  | nop => cases h; rfl
  | clr => cases h; rfl
  | push b => rcases exec_push_next h with ⟨-, rfl⟩ | ⟨-, rfl⟩ <;> rfl
  | val e => obtain ⟨v, -, rfl⟩ := exec_val_next h; rfl
  | rdp i => rcases exec_rdp_next h with ⟨-, -, b, -, rfl⟩ | ⟨-, rfl⟩ <;> rfl
  | rdb i => rcases exec_rdb_next h with ⟨-, b, -, rfl⟩ | ⟨-, rfl⟩ <;> rfl
  | rdr r => obtain ⟨a, -, rfl⟩ := exec_rdr_next h; rfl

end Sys2Proof.Machine
end

