-- ==== Sys2Proof/Laws/Memory.lean ====
section
/-!
SUPPORT. The laws of the frame buffer: a read after a write, and that every memory operation keeps the
canonical form.
-/

namespace Sys2Proof.Machine

@[simp] theorem Memory.read_nil (i : Nat) : Memory.read [] i = none := rfl

theorem Memory.read_cons (c : Host.Cell) (m : Memory) (i : Nat) :
    Memory.read (c :: m) i = if c.1 = i then some c.2 else Memory.read m i := rfl

/-- A read at the index written gives the byte written. -/
@[simp] theorem Memory.read_write_same (m : Memory) (i : Nat) (v : Byte) :
    (m.write i v).read i = some v := by
  induction m with
  | nil => simp [Memory.write, Memory.read_cons]
  | cons c m ih =>
    simp only [Memory.write]
    split
    · simp [Memory.read_cons]
    · split
      · simp [Memory.read_cons]
      · rename_i h
        simp [Memory.read_cons, Ne.symm h, ih]

/-- A write leaves every other index as it was. -/
theorem Memory.read_write_other (m : Memory) (i j : Nat) (v : Byte) (h : j ≠ i) :
    (m.write i v).read j = m.read j := by
  induction m with
  | nil => simp [Memory.write, Memory.read_cons, Ne.symm h]
  | cons c m ih =>
    simp only [Memory.write]
    split
    · simp [Memory.read_cons, Ne.symm h]
    · split
      · rename_i hc
        subst hc
        simp [Memory.read_cons, Ne.symm h]
      · simp [Memory.read_cons, ih]

/-- Everything a read after a write can answer. -/
theorem Memory.read_write (m : Memory) (i j : Nat) (v : Byte) :
    (m.write i v).read j = if j = i then some v else m.read j := by
  split
  · subst j; simp
  · exact m.read_write_other i j v ‹_›

/-- The indices a write leaves listed. -/
theorem Memory.mem_write (m : Memory) (i : Nat) (v : Byte) (c : Host.Cell)
    (h : c ∈ m.write i v) : c = (i, v) ∨ c ∈ m := by
  induction m with
  | nil => simpa [Memory.write] using h
  | cons d m ih =>
    simp only [Memory.write] at h
    split at h
    · simpa using h
    · split at h
      · rcases List.mem_cons.1 h with h | h
        · exact .inl h
        · exact .inr (List.mem_cons_of_mem _ h)
      · rcases List.mem_cons.1 h with h | h
        · exact .inr (h ▸ List.mem_cons_self)
        · rcases ih h with h | h
          · exact .inl h
          · exact .inr (List.mem_cons_of_mem _ h)

/-- A write keeps the indices strictly rising. -/
theorem Memory.write_rising (m : Memory) (i : Nat) (v : Byte)
    (h : (m.map Prod.fst).Pairwise (· < ·)) : ((m.write i v).map Prod.fst).Pairwise (· < ·) := by
  induction m with
  | nil => simp [Memory.write]
  | cons c m ih =>
    simp only [List.map_cons, List.pairwise_cons] at h
    simp only [Memory.write]
    split
    · rename_i hlt
      simp only [List.map_cons, List.pairwise_cons]
      refine ⟨?_, h⟩
      intro a ha
      rcases List.mem_cons.1 ha with ha | ha
      · omega
      · have := h.1 a ha
        omega
    · split
      · rename_i hc
        subst hc
        simpa using h
      · simp only [List.map_cons, List.pairwise_cons]
        refine ⟨?_, ih h.2⟩
        intro a ha
        obtain ⟨d, hd, rfl⟩ := List.mem_map.1 ha
        rcases Memory.mem_write m i v d hd with rfl | hd
        · dsimp only
          omega
        · exact h.1 _ (List.mem_map_of_mem hd)

/-- A write at one of the 64 locations keeps the canonical form. -/
theorem Memory.wf_write (m : Memory) (i : Nat) (v : Byte) (h : m.wf) (hi : i < fpcv.maxf) :
    (m.write i v).wf := by
  refine ⟨m.write_rising i v h.1, ?_, by simp [Memory.unlisted]⟩
  intro c hc
  rcases m.mem_write i v c hc with rfl | hc
  · exact hi
  · exact h.2.1 c hc

/-- The empty buffer, which `CLR` and reset leave, is in canonical form. -/
theorem Memory.wf_nil : Memory.wf [] := by simp [Memory.wf]

/-- The reset state's buffer is in canonical form. -/
theorem State.reset_buf_wf : State.reset.buf.wf := Memory.wf_nil

/-- A write above every listed index appends its cell. -/
theorem Memory.write_append (m : Memory) (i : Nat) (v : Byte) (h : ∀ c ∈ m, c.1 < i) :
    m.write i v = m ++ [(i, v)] := by
  induction m with
  | nil => rfl
  | cons c m ih =>
    have hc := h c List.mem_cons_self
    have hm := ih fun d hd => h d (List.mem_cons_of_mem _ hd)
    simp only [Memory.write, List.cons_append, hm]
    rw [if_neg (by omega), if_neg (by omega)]

/-- An index is readable exactly if it is listed. -/
theorem Memory.read_isSome (m : Memory) (i : Nat) :
    (m.read i).isSome ↔ i ∈ m.map Prod.fst := by
  induction m with
  | nil => simp
  | cons c m ih =>
    rw [Memory.read_cons]
    split
    · rename_i h; simp [h]
    · rename_i h
      rw [ih, List.map_cons, List.mem_cons]
      exact ⟨Or.inr, fun h' => h'.resolve_left (fun e => h e.symm)⟩

end Sys2Proof.Machine
end

