-- ==== Sys2Proof/Laws/PerInstr.lean ====
section
/-!
SUPPORT. Facts about every command as syntax, one lemma a constructor (LAWS.json).
-/

namespace Sys2Proof.Laws.EncodedFields

/-- The three fields of a command's word (30_encoding.md R62): its operation, zero, its argument. -/
def Statement (i : Instr) : Prop :=
  opField (encode i) = i.op ∧ rsvField (encode i) = 0 ∧ argField (encode i) = i.arg

/-- The fields of a word made of an operation and an argument. -/
theorem fields_of_word (op : BitVec 4) (arg : Byte) :
    opField ((op.setWidth 16 <<< 12) ||| arg.setWidth 16) = op ∧
      rsvField ((op.setWidth 16 <<< 12) ||| arg.setWidth 16) = 0 ∧
      argField ((op.setWidth 16 <<< 12) ||| arg.setWidth 16) = arg := by
  refine ⟨?_, ?_, ?_⟩
  · ext k hk
    simp only [opField, BitVec.getElem_extractLsb', BitVec.getLsbD_or, BitVec.getLsbD_shiftLeft,
      BitVec.getLsbD_setWidth]
    have : arg.getLsbD (12 + k) = false := BitVec.getLsbD_of_ge _ _ (by omega)
    simp [this, show 12 + k < 16 by omega, BitVec.getLsbD_eq_getElem hk]
    intro _; omega
  · ext k hk
    simp only [rsvField, BitVec.getElem_extractLsb', BitVec.getLsbD_or, BitVec.getLsbD_shiftLeft,
      BitVec.getLsbD_setWidth]
    simp [show 8 + k < 12 by omega]
  · ext k hk
    simp only [argField, BitVec.getElem_extractLsb', BitVec.getLsbD_or, BitVec.getLsbD_shiftLeft,
      BitVec.getLsbD_setWidth]
    simp [show k < 12 by omega, show k < 16 by omega, BitVec.getLsbD_eq_getElem hk]

theorem nop : Statement .nop := fields_of_word _ _
theorem clr : Statement .clr := fields_of_word _ _
theorem push (b : Byte) : Statement (.push b) := fields_of_word _ _
theorem val (e : Byte) : Statement (.val e) := fields_of_word _ _
theorem rdp (i : Byte) : Statement (.rdp i) := fields_of_word _ _
theorem rdb (i : Byte) : Statement (.rdb i) := fields_of_word _ _
theorem rdr (r : Reg) : Statement (.rdr r) := fields_of_word _ _

end Sys2Proof.Laws.EncodedFields
end

