-- ==== Sys2Proof/Laws/Step.lean ====
section
/-!
SUPPORT. What the port and the step can do.
-/

namespace Sys2Proof.Machine

/-- A legal word runs its command. -/
theorem perform_ok {cw : CommandWord} {i : Instr} (h : decode cw = .ok i) (s : State) :
    perform cw s = exec i s := by simp [perform, h]

/-- An illegal word is refused. -/
theorem perform_error {cw : CommandWord} {err : DecodeError} (h : decode cw = .error err) (s : State) :
    perform cw s = .next (s.respond (.refuse .eIll)) := by simp [perform, h, execIllegal]

/-- All that one transaction can do. -/
theorem perform_next {cw : CommandWord} {s t : State} (h : perform cw s = .next t) :
    (∃ i, decode cw = .ok i ∧ exec i s = .next t) ∨
      (∃ err, decode cw = .error err) ∧ t = s.respond (.refuse .eIll) := by
  cases hd : decode cw with
  | ok i => exact .inl ⟨i, rfl, perform_ok hd s ▸ h⟩
  | error err =>
    rw [perform_error hd] at h
    exact .inr ⟨⟨err, rfl⟩, by simpa [eq_comm] using h⟩

/-- The block takes the host's next event. -/
theorem step_of_cons {s : State} {ev : HostEvent} {rest : List HostEvent}
    (h : s.inbox = ev :: rest) : step s = handle ev (s.taken rest) := by simp [step, h]

/-- While the host is silent nothing changes. -/
theorem step_of_nil {s : State} (h : s.inbox = []) : step s = .next s := by simp [step, h]

/-- All that a step can do. -/
theorem step_cases {s t : State} (h : step s = .next t) :
    (s.inbox = [] ∧ t = s) ∨
      (∃ rest, s.inbox = .reset :: rest ∧ t = resetEvent (s.taken rest)) ∨
      ∃ cw rest, s.inbox = .command cw :: rest ∧
        ((∃ i, decode cw = .ok i ∧ exec i (s.taken rest) = .next t) ∨
          (∃ err, decode cw = .error err) ∧ t = (s.taken rest).respond (.refuse .eIll)) := by
  cases hi : s.inbox with
  | nil =>
    rw [step_of_nil hi] at h
    exact .inl ⟨rfl, by simpa [eq_comm] using h⟩
  | cons ev rest =>
    rw [step_of_cons hi] at h
    cases ev with
    | reset =>
      refine .inr (.inl ⟨rest, rfl, ?_⟩)
      simpa [handle, eq_comm] using h
    | command cw => exact .inr (.inr ⟨cw, rest, rfl, perform_next h⟩)

end Sys2Proof.Machine
end

