-- ==== Sys2Proof/Tests/Slice0.lean ====
section
/-!
SUPPORT. Tests of single steps, with results taken from the vectors of spec/95_test_vectors.md (each comment
names the vector), and for each obligation that has hypotheses a witness that meets them.
-/

namespace Sys2Proof.Tests

open Sys2Proof.Machine

/-! ### Helpers -/

/-- The cells of a byte string laid from index `k`. -/
def cellsFrom (k : Nat) : List Byte → Memory
  | [] => []
  | b :: bs => (k, b) :: cellsFrom (k + 1) bs

/-- A state that holds the bytes and no verdict. -/
def held (bs : List Byte) : State :=
  { State.reset with buf := cellsFrom 0 bs, cnt := BitVec.ofNat 7 bs.length }

/-- What an outcome's next state shows through `f`. -/
def showNext {α : Type} (f : State → α) : Host.Outcome State Fault Refusal → Option α
  | .next t => some (f t)
  | .fault _ => none
  | .refused _ => none

/-- The response word of an outcome. -/
def resp (o : Host.Outcome State Fault Refusal) : Option ResponseWord :=
  (showNext State.rsp o).join

/-- Status, result code and payload length of an outcome. -/
def verdictOf (o : Host.Outcome State Fault Refusal) : Option (Status × Byte × Nat) :=
  showNext (fun t => (t.status, t.rcode, t.payloadLen)) o

/-- The bytes an outcome's buffer holds. -/
def bytesIn (o : Host.Outcome State Fault Refusal) : Option (List Byte) :=
  showNext (fun t => t.buf.map Prod.snd) o

/-- Frame S1b: the reply that carries brightness 50. -/
def frameS1b : List Byte := [0x6F, 0x37, 0x04, 0x02, 0x00, 0x30, 0x32, 0x5C]

/-- S1b held and validated against opcode 0x30. -/
def judgedS1b : State := { held frameS1b with status := .stOk, plen := 1 }

/-- Vector W23 held and judged: result code 02. -/
def judgedW23 : State :=
  { held [0x6F, 0x37, 0x03, 0x02, 0x02, 0x30, 0x6B] with status := .stResult, rcode := 0x02 }

/-- 57 data bytes 0xAA, the largest payload. -/
def payload57 : List Byte := List.replicate 57 0xAA

/-- Vector Z3: the 64-byte reply that carries `payload57`. -/
def frameZ3 : List Byte := [0x6F, 0x37, 0x3C, 0x02, 0x00, 0x30] ++ payload57 ++ [0xFC]

/-- A full buffer. -/
def full : State := held frameZ3

/-! ### Well-formedness: what the check refuses -/

/-- 3 is the number of `PLEN`, not a reserved number (10_state.md R22). -/
theorem test_wf_refuses_reserved_3 : (Instr.rdr (.reserved 3)).wf = false := by decide

/-- 6 is the number of `FLAGS`, the last register (10_state.md R22). -/
theorem test_wf_refuses_reserved_6 : (Instr.rdr (.reserved 6)).wf = false := by decide

/-- 7 is the first reserved number (10_state.md R22). -/
theorem test_wf_accepts_reserved_7 : (Instr.rdr (.reserved 7)).wf = true := by decide

/-! ### Decoding words written out from the encoding (30_encoding.md R62, R65) -/

theorem test_decode_nop : decode 0b0000000000000000 = .ok .nop := rfl
theorem test_decode_clr : decode 0b0001000000000000 = .ok .clr := rfl
theorem test_decode_push : decode 0b0010000001101111 = .ok (.push 0x6F) := rfl
theorem test_decode_val : decode 0b0011000000110000 = .ok (.val 0x30) := rfl
theorem test_decode_rdp : decode 0b0100000011111111 = .ok (.rdp 255) := rfl
theorem test_decode_rdb : decode 0b0101000000111111 = .ok (.rdb 63) := rfl

/-- The seven registers of `RDR` and the first and last reserved numbers (10_state.md R22). -/
theorem test_decode_rdr :
    decode 0x6000 = .ok (.rdr .status) ∧ decode 0x6001 = .ok (.rdr .cnt) ∧
      decode 0x6002 = .ok (.rdr .rcode) ∧ decode 0x6003 = .ok (.rdr .plen) ∧
      decode 0x6004 = .ok (.rdr .csum) ∧ decode 0x6005 = .ok (.rdr .len) ∧
      decode 0x6006 = .ok (.rdr .flags) ∧ decode 0x6007 = .ok (.rdr (.reserved 7)) ∧
      decode 0x60FF = .ok (.rdr (.reserved 255)) :=
  ⟨rfl, rfl, rfl, rfl, rfl, rfl, rfl, rfl, rfl⟩

/-- Vectors I1 to I10: illegal words, by the reason of each. -/
theorem test_decode_illegal :
    decode 0x0001 = .error .operandNotZero ∧ decode 0x00FF = .error .operandNotZero ∧
      decode 0x1001 = .error .operandNotZero ∧ decode 0x0100 = .error .reservedBits ∧
      decode 0x2F6F = .error .reservedBits ∧ decode 0x3830 = .error .reservedBits ∧
      decode 0x7000 = .error .reservedOp ∧ decode 0x8000 = .error .reservedOp ∧
      decode 0xF0FF = .error .reservedOp ∧ decode 0xFFFF = .error .reservedBits :=
  ⟨rfl, rfl, rfl, rfl, rfl, rfl, rfl, rfl, rfl, rfl⟩

/-- I9: the illegal word answers 0x8001 and leaves the block alone. -/
theorem test_illegal_word :
    resp (perform 0xF0FF judgedS1b) = some 0x8001 ∧
      verdictOf (perform 0xF0FF judgedS1b) = some (.stOk, 0x00, 1) := by decide

/-! ### The commands, one step each -/

/-- T18: `NOP` answers 0x0000. -/
theorem test_nop_answers : resp (exec .nop judgedS1b) = some 0x0000 := by decide

/-- T19: the verdict is still held after `NOP`. -/
theorem test_nop_keeps_verdict :
    verdictOf (exec .nop judgedS1b) = some (.stOk, 0x00, 1) := by decide

/-- U8, U9: `CLR` clears a held result code. -/
theorem test_clr_clears_verdict :
    verdictOf (exec .clr judgedW23) = some (.stNone, 0x00, 0) ∧
      resp (exec .clr judgedW23) = some 0x0000 := by decide

/-- R81: `CLR` empties the buffer and clears the sticky flag. -/
theorem test_clr_clears_overflow :
    showNext (fun t => (t.buf, t.cnt, t.ovf)) (exec .clr { full with ovf := true }) =
      some ([], 0, false) := by decide

/-- T20, T21: a ninth byte is appended, the count answered and the verdict dropped. -/
theorem test_push_appends :
    resp (exec (.push 0x00) judgedS1b) = some 0x0009 ∧
      bytesIn (exec (.push 0x00) judgedS1b) = some (frameS1b ++ [0x00]) ∧
      verdictOf (exec (.push 0x00) judgedS1b) = some (.stNone, 0x00, 0) := by decide

/-- Z5: a byte offered to a full buffer is dropped and sets the flag; the verdict stays. -/
theorem test_push_full :
    resp (exec (.push 0x99) full) = some 0x8002 ∧
      bytesIn (exec (.push 0x99) full) = some frameZ3 ∧
      showNext State.ovf (exec (.push 0x99) full) = some true := by decide

/-- V2, and W27: the same bytes judged against another opcode. -/
theorem test_val_opcode :
    verdictOf (exec (.val 0x30) (held frameS1b)) = some (.stOk, 0x00, 1) ∧
      resp (exec (.val 0x31) (held frameS1b)) = some 0x0006 := by decide

/-- W26: the result code is reported before the wrong opcode and the bad checksum. -/
theorem test_val_result_code :
    verdictOf (exec (.val 0x30) (held [0x6F, 0x37, 0x04, 0x02, 0x01, 0x31, 0x32, 0xFF])) =
      some (.stResult, 0x01, 0) := by decide

/-- T11: the payload byte. T13: the index does not wrap. -/
theorem test_rdp_index :
    resp (exec (.rdp 0) judgedS1b) = some 0x0032 ∧
      resp (exec (.rdp 1) judgedS1b) = some 0x8003 ∧
      resp (exec (.rdp 255) judgedS1b) = some 0x8003 := by decide

/-- T1: no payload without a verdict. -/
theorem test_rdp_no_verdict : resp (exec (.rdp 0) (held frameS1b)) = some 0x8003 := by decide

/-- T5, T6: the last byte held, and one past it. -/
theorem test_rdb_bounds :
    resp (exec (.rdb 7) (held frameS1b)) = some 0x005C ∧
      resp (exec (.rdb 8) (held frameS1b)) = some 0x8003 := by decide

/-- Q10, Q12: nothing to read after reset. -/
theorem test_rdb_reset :
    resp (exec (.rdb 0) State.reset) = some 0x8003 ∧
      resp (exec (.rdb 64) State.reset) = some 0x8003 := by decide

/-- T2 to T4, T8 to T10, U3: the registers around validated frames. -/
theorem test_rdr_registers :
    resp (exec (.rdr .flags) (held frameS1b)) = some 0x0006 ∧
      resp (exec (.rdr .len) (held frameS1b)) = some 0x0004 ∧
      resp (exec (.rdr .csum) (held frameS1b)) = some 0x0000 ∧
      resp (exec (.rdr .status) judgedS1b) = some 0x0001 ∧
      resp (exec (.rdr .plen) judgedS1b) = some 0x0001 ∧
      resp (exec (.rdr .cnt) judgedS1b) = some 0x0008 ∧
      resp (exec (.rdr .rcode) judgedW23) = some 0x0002 := by decide

/-- Q6, Q8, Q9, and the flags of two and of nine bytes (section 4.5). -/
theorem test_rdr_corners :
    resp (exec (.rdr .len) State.reset) = some 0x8005 ∧
      resp (exec (.rdr (.reserved 7)) State.reset) = some 0x8004 ∧
      resp (exec (.rdr (.reserved 255)) State.reset) = some 0x8004 ∧
      resp (exec (.rdr .flags) (held [0x6F, 0x37])) = some 0x0004 ∧
      resp (exec (.rdr .flags) (held (frameS1b ++ [0x00]))) = some 0x0004 := by decide

/-! ### Validation vectors (95_test_vectors.md section 3) -/

/-- W1, W2, W6, W32: HeaderError. -/
theorem test_header_vectors :
    decodeReply 0x30 (bytesOf []) 0 = some ⟨.stHeader, 0x00, 0⟩ ∧
      decodeReply 0x30 (bytesOf [0x6F]) 1 = some ⟨.stHeader, 0x00, 0⟩ ∧
      decodeReply 0x30 (bytesOf [0x37, 0x6F, 0x04, 0x02, 0x00, 0x30, 0x32, 0x5C]) 8 =
        some ⟨.stHeader, 0x00, 0⟩ ∧
      decodeReply 0x30 (bytesOf (0x00 :: frameS1b)) 9 = some ⟨.stHeader, 0x00, 0⟩ := by decide

/-- W8, W10, W11, W14, W17, W19, S1d: LengthError; `L + 4` does not wrap. -/
theorem test_length_vectors :
    decodeReply 0x30 (bytesOf [0x6F, 0x37]) 2 = some ⟨.stLength, 0x00, 0⟩ ∧
      decodeReply 0x30 (bytesOf [0x6F, 0x37, 0xFF]) 3 = some ⟨.stLength, 0x00, 0⟩ ∧
      decodeReply 0x30 (bytesOf [0x6F, 0x37, 0xFC]) 3 = some ⟨.stLength, 0x00, 0⟩ ∧
      decodeReply 0x30 (bytesOf (frameS1b ++ [0x00])) 9 = some ⟨.stLength, 0x00, 0⟩ ∧
      decodeReply 0x30 (bytesOf [0x6F, 0x37, 0x00, 0x02]) 4 = some ⟨.stLength, 0x00, 0⟩ ∧
      decodeReply 0x58 (bytesOf [0x6F, 0x37, 0x02, 0x02, 0x00, 0x58]) 6 =
        some ⟨.stLength, 0x00, 0⟩ ∧
      decodeReply 0x30 (bytesOf [0x6F, 0x37, 0x05, 0x02, 0x00, 0x30, 0x32, 0x5D]) 8 =
        some ⟨.stLength, 0x00, 0⟩ := by decide

/-- W21, W24, W28, W29, W30: the later checks. -/
theorem test_body_vectors :
    decodeReply 0x30 (bytesOf [0x6F, 0x37, 0x04, 0x00, 0x00, 0x30, 0x32, 0x5E]) 8 =
        some ⟨.stFormat, 0x00, 0⟩ ∧
      decodeReply 0x30 (bytesOf [0x6F, 0x37, 0x04, 0x02, 0xA5, 0x30, 0x11, 0xDA]) 8 =
        some ⟨.stResult, 0xA5, 0⟩ ∧
      decodeReply 0x30 (bytesOf [0x6F, 0x37, 0x04, 0x02, 0x00, 0x31, 0x32, 0xFF]) 8 =
        some ⟨.stCommand, 0x00, 0⟩ ∧
      decodeReply 0x30 (bytesOf [0x6F, 0x37, 0x04, 0x02, 0x00, 0x30, 0x32, 0x5D]) 8 =
        some ⟨.stChecksum, 0x00, 0⟩ ∧
      decodeReply 0x30 (bytesOf [0x6F, 0x37, 0x04, 0x02, 0x00, 0x30, 0x33, 0x5C]) 8 =
        some ⟨.stChecksum, 0x00, 0⟩ := by decide

/-- V1, V3, V5, V7: accepted frames. -/
theorem test_accepted_vectors :
    decodeReply 0x30 (bytesOf [0x6F, 0x37, 0x03, 0x02, 0x00, 0x30, 0x69]) 7 =
        some ⟨.stOk, 0x00, 0⟩ ∧
      decodeReply 0x48 (bytesOf [0x6F, 0x37, 0x06, 0x02, 0x00, 0x48, 0x32, 0x28, 0x63, 0x6D]) 10 =
        some ⟨.stOk, 0x00, 3⟩ ∧
      decodeReply 0xFF
          (bytesOf [0x6F, 0x37, 0x07, 0x02, 0x00, 0xFF, 0xFF, 0xFF, 0xFF, 0xFF, 0xA2]) 11 =
        some ⟨.stOk, 0x00, 4⟩ ∧
      decodeReply 0x30 (bytesOf [0x6F, 0x37, 0x05, 0x02, 0x00, 0x30, 0x00, 0x81, 0xEE]) 9 =
        some ⟨.stOk, 0x00, 2⟩ := by decide

/-- Z3: the longest acceptable reply. -/
theorem test_longest_reply :
    decodeReply 0x30 (bytesOf frameZ3) 64 = some ⟨.stOk, 0x00, 57⟩ := by decide +kernel

/-- X1, X4, X5, X8, X10, X11: the checksum function. -/
theorem test_xor_vectors :
    xor8 (bytesOf []) 0 0 = some 0x00 ∧ xor8 (bytesOf [0xA5, 0xA5]) 0 2 = some 0x00 ∧
      xor8 (bytesOf [0x6F, 0x37]) 0 2 = some 0x58 ∧ xor8 (bytesOf frameS1b) 0 7 = some 0x5C ∧
      xor8 (bytesOf [0x01, 0x02, 0x04, 0x08, 0x10, 0x20, 0x40, 0x80]) 0 8 = some 0xFF ∧
      xor8 (bytesOf [0x80, 0x80, 0x01]) 0 3 = some 0x01 := by decide

/-- E1, E3, E6, E7, Z3: the wire frames. -/
theorem test_frames :
    encodeCommand 0xEB 0x30 [] = some [0x37, 0x51, 0x02, 0xEB, 0x30, 0xBF] ∧
      encodeCommand 0xEB 0x30 [0x32] = some [0x37, 0x51, 0x03, 0xEB, 0x30, 0x32, 0x8C] ∧
      makeReply 0x00 0x30 [0x32] = some frameS1b ∧
      makeReply 0x02 0x30 [] = some [0x6F, 0x37, 0x03, 0x02, 0x02, 0x30, 0x6B] ∧
      makeReply 0x00 0x30 payload57 = some frameZ3 := by decide +kernel

/-- Lines of the programs of section 7, and a line with a comment. -/
theorem test_assemble :
    assemble "CLR".toList = some 0x1000 ∧ assemble "PUSH 0x6F".toList = some 0x206F ∧
      assemble "VAL 0x30 ; judge".toList = some 0x3030 ∧
      assemble "RDP 0".toList = some 0x4000 ∧ assemble "RDR CSUM".toList = some 0x6004 ∧
      assemble "RDR 7".toList = some 0x6007 ∧ assemble "RDB 256".toList = none := by decide

/-! ### The port -/

/-- `withFetchWord` places the word the next step takes: T11. -/
theorem test_fetch_word : resp (step (judgedS1b.withFetchWord 16 0x4000)) = some 0x0032 := by decide

/-- R160: a reset empties the buffer and answers nothing. -/
theorem test_reset_event :
    showNext (fun t => (t.buf, t.cnt, t.status, t.rsp)) (step { judgedS1b with inbox := [.reset] }) =
      some ([], 0, .stNone, none) := by decide

/-! ### Witnesses: for each obligation that has hypotheses, values that meet them -/

/-- The cells of a byte string read as the string. -/
theorem cellsFrom_read (bs : List Byte) (k i : Nat) :
    (cellsFrom k bs).read (k + i) = bs[i]? := by
  induction bs generalizing k i with
  | nil => rfl
  | cons b bs ih =>
    cases i with
    | zero => simp [cellsFrom, Memory.read]
    | succ i =>
      have h := ih (k + 1) i
      rw [show k + 1 + i = k + (i + 1) by omega] at h
      simpa [cellsFrom, Memory.read] using h

/-- `held bs` holds `bs`. -/
theorem held_holds (bs : List Byte) (h : bs.length < 128) : (held bs).Holds bs :=
  ⟨by simpa [State.count, held] using h, fun i _ => by
    have := cellsFrom_read bs 0 i
    rwa [Nat.zero_add] at this⟩

/-- A held verdict does not change what a state holds. -/
theorem judgedS1b_holds : judgedS1b.Holds frameS1b := held_holds frameS1b (by decide)

/-- A state that holds a validated frame meets the invariant. -/
theorem judgedS1b_inv : judgedS1b.Inv where
  count_le := by decide
  filled := by decide
  cleared := by decide
  judged := fun _ => ⟨0x30, by decide⟩
  overflowed := by decide

/-- A full buffer whose flag is set meets the invariant. -/
theorem full_ovf_inv : ({ full with ovf := true } : State).Inv where
  count_le := by decide
  filled := by decide
  cleared := by decide
  judged := fun h => absurd rfl h
  overflowed := fun _ => by decide

/-- A state reached from reset: `VAL` on the empty buffer (vector Q14). -/
theorem reachable_header : ∃ s : State, s.Reachable ∧ s.status = .stHeader :=
  ⟨_, ⟨[.command 0x3030], 1, rfl⟩, rfl⟩

theorem witness_DecodeEncodeRoundTrip :
    (Instr.rdr (.reserved 7)).wf = true ∧ (Instr.rdr (.reserved 255)).wf = true ∧
      decode 0x20FF = .ok (.push 0xFF) := ⟨by decide, by decide, rfl⟩

theorem witness_DecoderAgreesWithOpcodeMap :
    decode 0x60FF = .ok (.rdr (.reserved 255)) ∧ (⟨"RDR", 0x6000, 0xFF00⟩ : OpRow) ∈ opcodeMap ∧
      (⟨"RDR", 0x6000, 0xFF00⟩ : OpRow).selects 0x60FF = true := ⟨rfl, by decide, by decide⟩

/-- One illegal word a reason, and the first and last reserved register. -/
theorem witness_IllegalWordsRefused :
    decode 0x7000 = .error .reservedOp ∧ decode 0x0100 = .error .reservedBits ∧
      decode 0x1001 = .error .operandNotZero ∧
      7 ≤ (7 : Byte).toNat ∧ 7 ≤ (255 : Byte).toNat :=
  ⟨rfl, rfl, rfl, by decide, by decide⟩

/-- A legal word, an illegal word and a reset at the port, and the empty port. -/
theorem witness_StepRunsDecodedCommand :
    ((State.reset.issue 0x206F).inbox = .command 0x206F :: [] ∧ decode 0x206F = .ok (.push 0x6F)) ∧
      ((State.reset.issue 0x7000).inbox = .command 0x7000 :: [] ∧
        decode 0x7000 = .error .reservedOp) ∧
      ({ judgedS1b with inbox := [.reset, .command 0x0000] } : State).inbox =
        .reset :: [.command 0x0000] ∧
      State.reset.inbox = [] := ⟨⟨rfl, rfl⟩, ⟨rfl, rfl⟩, rfl, rfl⟩

theorem witness_ResetLooksLikeClear :
    (∃ t, exec .clr judgedS1b = .next t) ∧ ∃ u, handle .reset judgedS1b = .next u :=
  ⟨⟨_, rfl⟩, _, rfl⟩

theorem witness_ResetValues : ∃ t, exec .clr judgedW23 = .next t := ⟨_, rfl⟩

/-- The invariant, and an illegal word. -/
theorem witness_StepIsTotal : judgedS1b.Inv ∧ ∀ i, decode 0xFFFF ≠ .ok i :=
  ⟨judgedS1b_inv, fun _ h => nomatch h⟩

/-- A response that is no refusal, and each of the five refusals. -/
theorem witness_ResponseWordShape :
    (∃ t, perform 0x4000 judgedS1b = .next t ∧ t.rsp = some 0x0032) ∧
      (∃ t, perform 0xFFFF judgedS1b = .next t ∧ t.rsp = some 0x8001) ∧
      (∃ t, perform 0x2000 full = .next t ∧ t.rsp = some 0x8002) ∧
      (∃ t, perform 0x4001 judgedS1b = .next t ∧ t.rsp = some 0x8003) ∧
      (∃ t, perform 0x6007 judgedS1b = .next t ∧ t.rsp = some 0x8004) ∧
      (∃ t, perform 0x6005 State.reset = .next t ∧ t.rsp = some 0x8005) ∧
      isRefusal 0x8001 = true ∧ isRefusal 0x0032 = false :=
  ⟨⟨_, rfl, rfl⟩, ⟨_, rfl, rfl⟩, ⟨_, rfl, rfl⟩, ⟨_, rfl, rfl⟩, ⟨_, rfl, rfl⟩, ⟨_, rfl, rfl⟩,
    by decide, by decide⟩

/-- The ends of the illegal range. -/
theorem witness_NopDoesNothing :
    0x0001 ≤ (0x0001 : CommandWord).toNat ∧ (0x0001 : CommandWord).toNat ≤ 0x0FFF ∧
      0x0001 ≤ (0x0FFF : CommandWord).toNat ∧ (0x0FFF : CommandWord).toNat ≤ 0x0FFF := by decide

/-- The ends of the illegal range, and a `CLR` that lowers `CNT` and clears `OVF`. -/
theorem witness_ClearGivesResetState :
    (0x1001 ≤ (0x1001 : CommandWord).toNat ∧ (0x1001 : CommandWord).toNat ≤ 0x1FFF ∧
      0x1001 ≤ (0x1FFF : CommandWord).toNat ∧ (0x1FFF : CommandWord).toNat ≤ 0x1FFF) ∧
    ∃ t, exec .clr { full with ovf := true } = .next t ∧
      t.count < ({ full with ovf := true } : State).count ∧
      ({ full with ovf := true } : State).ovf = true ∧ t.ovf = false :=
  ⟨by decide, _, rfl, by decide, rfl, rfl⟩

/-- An empty buffer, one with a single free place, and a string of 64 bytes. -/
theorem witness_PushAppendsByte :
    State.reset.count < 64 ∧ (held (frameZ3.take 63)).count < 64 ∧
      (held (frameZ3.take 63)).count = 63 ∧ State.reset.count = 0 ∧ frameZ3.length ≤ 64 ∧
      frameZ3.length = 64 := by decide

theorem witness_PushOnFullBufferSetsOverflow :
    full.count = 64 ∧
      ((Instr.push 0x00 ≠ .clr ∧ ({ full with ovf := true } : State).ovf = true) ∧
        ∃ t, exec (.push 0x00) { full with ovf := true } = .next t) ∧
      (full.Holds frameZ3 ∧ frameZ3.length = 64) ∧
      payload57.length = 57 ∧ makeReply 0x00 0x30 payload57 = some frameZ3 :=
  ⟨by decide, ⟨⟨nofun, rfl⟩, _, rfl⟩, ⟨held_holds _ (by decide), by decide⟩, by decide, by decide +kernel⟩

theorem witness_PushDiscardsVerdict :
    judgedS1b.count < 64 ∧ (held (frameZ3.take 63)).count < 64 ∧
      ∃ s : State, s.Reachable ∧ s.status ≠ .stNone :=
  ⟨by decide, by decide, reachable_header.imp fun _ h => ⟨h.1, by rw [h.2]; decide⟩⟩

/-- A full buffer, a `PUSH` that sets the flag, a `CLR` that clears it, a `VAL` beside it. -/
theorem witness_OverflowIsSticky :
    full.count = 64 ∧
      (full.ovf = false ∧ ∃ t, exec (.push 0x99) full = .next t ∧ t.ovf = true) ∧
      (({ full with ovf := true } : State).ovf = true ∧
        ∃ t, exec .clr { full with ovf := true } = .next t ∧ t.ovf = false) ∧
      ∃ t, exec (.val 0x30) full = .next t :=
  ⟨by decide, ⟨rfl, _, rfl, rfl⟩, ⟨rfl, _, rfl, rfl⟩, _, rfl⟩

/-- The invariant, the empty buffer, and a full buffer that holds a validated frame. -/
theorem witness_ValWritesVerdict :
    judgedS1b.Inv ∧ State.reset.count = 0 ∧
      full.count = 64 ∧ ∃ t, exec (.val 0x30) full = .next t ∧ t.status = .stOk :=
  ⟨judgedS1b_inv, rfl, by decide, _, rfl, rfl⟩

/-- A result-code error, and an error of another kind. -/
theorem witness_ValidationErrorRecords :
    (∃ t, exec (.val 0x30) judgedW23 = .next t ∧ t.status ≠ .stOk ∧ t.status = .stResult) ∧
      ∃ t, exec (.val 0x31) judgedS1b = .next t ∧ t.status ≠ .stOk ∧ t.status ≠ .stResult :=
  ⟨⟨_, rfl, nofun, rfl⟩, _, rfl, nofun, nofun⟩

/-- Two buffers of five bytes (of one the length byte is exceeded already, of the other not), two full buffers,
a held frame, and a read of the flags. -/
theorem witness_IntakeDoesNotValidate :
    ((held [0x6F, 0x37, 0x00, 0x00, 0x00]).cnt = (held (frameS1b.take 5)).cnt ∧
        (held [0x6F, 0x37, 0x00, 0x00, 0x00]).status = (held (frameS1b.take 5)).status ∧
        (held [0x6F, 0x37, 0x00, 0x00, 0x00]).rcode = (held (frameS1b.take 5)).rcode ∧
        (held [0x6F, 0x37, 0x00, 0x00, 0x00]).plen = (held (frameS1b.take 5)).plen ∧
        (held [0x6F, 0x37, 0x00, 0x00, 0x00]).ovf = (held (frameS1b.take 5)).ovf ∧
        (∃ t, exec (.push 0x02) (held (frameS1b.take 5)) = .next t) ∧
        ∃ t', exec (.push 0xFF) (held [0x6F, 0x37, 0x00, 0x00, 0x00]) = .next t') ∧
      ((held (List.replicate 64 0x00)).cnt = full.cnt ∧
        (held (List.replicate 64 0x00)).status = full.status ∧
        (held (List.replicate 64 0x00)).rcode = full.rcode ∧
        (held (List.replicate 64 0x00)).plen = full.plen ∧
        (held (List.replicate 64 0x00)).ovf = full.ovf ∧
        (∃ t, exec (.push 0x02) full = .next t) ∧
        ∃ t', exec (.push 0xFF) (held (List.replicate 64 0x00)) = .next t') ∧
      ((held frameS1b).Holds frameS1b ∧ ∃ t, exec (.val 0x30) (held frameS1b) = .next t) ∧
      ∃ t, exec (.rdr .flags) (held [0x6F, 0x37, 0x04]) = .next t :=
  ⟨⟨rfl, rfl, rfl, rfl, rfl, ⟨_, rfl⟩, _, rfl⟩, ⟨rfl, rfl, rfl, rfl, rfl, ⟨_, rfl⟩, _, rfl⟩,
    ⟨held_holds _ (by decide), _, rfl⟩, _, rfl⟩

/-- A `PUSH` on 63 bytes, a `PUSH` on 64, a `CLR`. -/
theorem witness_CountMovesByOneOrToZero :
    ((held (frameZ3.take 63)).count ≤ 64 ∧
        ∃ t, exec (.push 0x00) (held (frameZ3.take 63)) = .next t ∧ t.count = 64) ∧
      (full.count ≤ 64 ∧ ∃ t, exec (.push 0x00) full = .next t ∧ t.count = 64) ∧
      full.count ≤ 64 ∧ ∃ t, exec .clr full = .next t ∧ t.count = 0 :=
  ⟨⟨by decide, _, rfl, by decide⟩, ⟨by decide, _, rfl, by decide⟩, by decide, _, rfl, rfl⟩

/-- No byte, one byte, a wrong first byte, a wrong second byte. -/
theorem witness_ValHeaderError :
    ((held []).Holds [] ∧ ([] : List Byte).length < 2) ∧
      ((held [0x6F]).Holds [0x6F] ∧ ([0x6F] : List Byte).length < 2) ∧
      ((held [0x6E, 0x37]).Holds [0x6E, 0x37] ∧ ([0x6E, 0x37] : List Byte)[0]? ≠ some 0x6F) ∧
      (held [0x6F, 0x36]).Holds [0x6F, 0x36] ∧ ([0x6F, 0x36] : List Byte)[1]? ≠ some 0x37 :=
  ⟨⟨held_holds _ (by decide), by decide⟩, ⟨held_holds _ (by decide), by decide⟩,
    ⟨held_holds _ (by decide), by decide⟩, held_holds _ (by decide), by decide⟩

/-- Header only, a length that does not match, and a matching length of 2. -/
theorem witness_ValLengthError :
    ((held [0x6F, 0x37]).Holds [0x6F, 0x37] ∧ ([0x6F, 0x37] : List Byte).length = 2) ∧
      ((held [0x6F, 0x37, 0xFF]).Holds [0x6F, 0x37, 0xFF] ∧
        (0xFF : Byte).toNat + 4 ≠ ([0x6F, 0x37, 0xFF] : List Byte).length) ∧
      (held [0x6F, 0x37, 0x02, 0x02, 0x00, 0x58]).Holds [0x6F, 0x37, 0x02, 0x02, 0x00, 0x58] ∧
        (0x02 : Byte).toNat + 4 = ([0x6F, 0x37, 0x02, 0x02, 0x00, 0x58] : List Byte).length ∧
        (0x02 : Byte).toNat < 3 :=
  ⟨⟨held_holds _ (by decide), by decide⟩, ⟨held_holds _ (by decide), by decide⟩,
    held_holds _ (by decide), by decide, by decide⟩

/-- What the body statements assume of a frame of declared length `l` and body `m rc o`. -/
def BodyPremises (bs : List Byte) (l m rc o : Byte) : Prop :=
  (held bs).Holds bs ∧ bs.length ≤ 64 ∧ bs[0]? = some 0x6F ∧ bs[1]? = some 0x37 ∧
    bs[2]? = some l ∧ l.toNat + 4 = bs.length ∧ 3 ≤ l.toNat ∧ bs[3]? = some m ∧
    bs[4]? = some rc ∧ bs[5]? = some o

/-- A wrong marker, a failure code, a wrong opcode, each in a frame of the least length. -/
theorem witness_ValBodyErrors :
    (BodyPremises [0x6F, 0x37, 0x03, 0x03, 0x00, 0x30, 0x00] 0x03 0x03 0x00 0x30 ∧
        (0x03 : Byte) ≠ 0x02) ∧
      (BodyPremises [0x6F, 0x37, 0x03, 0x02, 0x02, 0x30, 0x6B] 0x03 0x02 0x02 0x30 ∧
        (0x02 : Byte) ≠ 0x00) ∧
      BodyPremises [0x6F, 0x37, 0x03, 0x02, 0x00, 0x30, 0x69] 0x03 0x02 0x00 0x30 ∧
        (0x30 : Byte) ≠ 0x31 := by
  refine ⟨⟨⟨held_holds _ ?_, ?_⟩, ?_⟩, ⟨⟨held_holds _ ?_, ?_⟩, ?_⟩, ⟨held_holds _ ?_, ?_⟩, ?_⟩ <;>
    decide

/-- A wrong checksum, no data, and the largest payload with its last index. -/
theorem witness_ValChecksumAndSuccess :
    (BodyPremises [0x6F, 0x37, 0x03, 0x02, 0x00, 0x30, 0x68] 0x03 0x02 0x00 0x30 ∧
        xor8 (bytesOf [0x6F, 0x37, 0x03, 0x02, 0x00, 0x30, 0x68]) 0 6 ≠ some 0x68) ∧
      (BodyPremises [0x6F, 0x37, 0x03, 0x02, 0x00, 0x30, 0x69] 0x03 0x02 0x00 0x30 ∧
        xor8 (bytesOf [0x6F, 0x37, 0x03, 0x02, 0x00, 0x30, 0x69]) 0 6 = some 0x69) ∧
      BodyPremises frameZ3 0x3C 0x02 0x00 0x30 ∧
        xor8 (bytesOf frameZ3) 0 63 = frameZ3[63]? ∧ 56 < (0x3C : Byte).toNat - 3 := by
  refine ⟨⟨⟨held_holds _ ?_, ?_⟩, ?_⟩, ⟨⟨held_holds _ ?_, ?_⟩, ?_⟩, ⟨held_holds _ ?_, ?_⟩, ?_, ?_⟩ <;>
    decide +kernel

theorem witness_WholeFrameXorDecidesChecksum :
    (held frameS1b).Holds frameS1b ∧ frameS1b[0]? = some 0x6F ∧ frameS1b[1]? = some 0x37 ∧
      frameS1b[2]? = some 0x04 ∧ (0x04 : Byte).toNat + 4 = frameS1b.length ∧
      3 ≤ (0x04 : Byte).toNat :=
  ⟨held_holds _ (by decide), by decide⟩

/-- A frame for every row of the table, a command that is not `VAL`, and an illegal word. -/
theorem witness_VerdictPriority :
    (∀ bs ∈ ([[], [0x6F, 0x37], [0x6F, 0x37, 0x03], [0x6F, 0x37, 0x00, 0x58],
          [0x6F, 0x37, 0x03, 0x03, 0x00, 0x30, 0x00], [0x6F, 0x37, 0x03, 0x02, 0x01, 0x30, 0x68],
          [0x6F, 0x37, 0x03, 0x02, 0x00, 0x31, 0x68], [0x6F, 0x37, 0x03, 0x02, 0x00, 0x30, 0x00],
          [0x6F, 0x37, 0x03, 0x02, 0x00, 0x30, 0x69]] : List (List Byte)),
        (held bs).Holds bs ∧ ∃ t, exec (.val 0x30) (held bs) = .next t) ∧
      ((∀ e, Instr.nop ≠ .val e) ∧ ∃ t, exec .nop judgedS1b = .next t) ∧
      decode 0x7000 = .error .reservedOp := by
  refine ⟨?_, ⟨nofun, _, rfl⟩, rfl⟩
  simp only [List.forall_mem_cons, List.not_mem_nil, false_imp_iff, implies_true, and_true]
  exact ⟨⟨held_holds _ (by decide), _, rfl⟩, ⟨held_holds _ (by decide), _, rfl⟩,
    ⟨held_holds _ (by decide), _, rfl⟩, ⟨held_holds _ (by decide), _, rfl⟩,
    ⟨held_holds _ (by decide), _, rfl⟩, ⟨held_holds _ (by decide), _, rfl⟩,
    ⟨held_holds _ (by decide), _, rfl⟩, ⟨held_holds _ (by decide), _, rfl⟩,
    held_holds _ (by decide), _, rfl⟩

/-- Buffers that differ above the count, frames whose data differ with one XOR (vector V7), two opcodes that
are both wrong, and two states that share only the buffer and the count. -/
theorem witness_DecodeReplyReadsOnlyItsInputs :
    (∀ i, i < 8 → bytesOf frameS1b i = bytesOf (frameS1b ++ [0x99]) i) ∧
      (bytesOf [0x6F, 0x37, 0x05, 0x02, 0x00, 0x30, 0x80, 0x01, 0xEE] 2 = some 0x05 ∧
        (∀ i, i < 9 → ¬(6 ≤ i ∧ i ≤ (0x05 : Byte).toNat + 2) →
          bytesOf [0x6F, 0x37, 0x05, 0x02, 0x00, 0x30, 0x80, 0x01, 0xEE] i =
            bytesOf [0x6F, 0x37, 0x05, 0x02, 0x00, 0x30, 0x00, 0x81, 0xEE] i) ∧
        xor8 (bytesOf [0x6F, 0x37, 0x05, 0x02, 0x00, 0x30, 0x80, 0x01, 0xEE]) 0 8 =
          xor8 (bytesOf [0x6F, 0x37, 0x05, 0x02, 0x00, 0x30, 0x00, 0x81, 0xEE]) 0 8) ∧
      (bytesOf frameS1b 5 = some 0x31 ↔ bytesOf frameS1b 5 = some 0x32) ∧
      judgedS1b.buf = (held frameS1b).buf ∧ judgedS1b.cnt = (held frameS1b).cnt ∧
      ∃ t, exec (.val 0x30) judgedS1b = .next t :=
  ⟨by decide, by decide, by decide, rfl, rfl, _, rfl⟩

/-- A frame that passes, and one that fails each of checks 1 to 4. -/
theorem witness_ValIsRepeatable :
    (∃ t, exec (.val 0x30) (held frameS1b) = .next t ∧ t.status = .stOk) ∧
      (∃ t, exec (.val 0x30) State.reset = .next t ∧ t.status = .stHeader) ∧
      (∃ t, exec (.val 0x30) (held [0x6F, 0x37]) = .next t ∧ t.status = .stLength) ∧
      (∃ t, exec (.val 0x30) (held [0x6F, 0x37, 0x03, 0x03, 0x00, 0x30, 0x00]) = .next t ∧
        t.status = .stFormat) ∧
      ∃ t, exec (.val 0x30) judgedW23 = .next t ∧ t.status = .stResult :=
  ⟨⟨_, rfl, rfl⟩, ⟨_, rfl, rfl⟩, ⟨_, rfl, rfl⟩, ⟨_, rfl, rfl⟩, _, rfl, rfl⟩

/-- Two ranges, a permutation, one byte replaced, a whole frame, two bytes flipped in one bit. -/
theorem witness_XorLaws :
    (2 ≤ 5 ∧ 5 ≤ 8 ∧ xor8 (bytesOf frameS1b) 2 5 = some 0x06 ∧
        xor8 (bytesOf frameS1b) 5 8 = some 0x5E) ∧
      [(0x6F : Byte), 0x37].Perm [0x37, 0x6F] ∧
      (0 ≤ 7 ∧ 7 < 8 ∧ bytesOf frameS1b 7 = some 0x5C ∧ xor8 (bytesOf frameS1b) 0 8 = some 0x00) ∧
      xor8 (bytesOf frameS1b) 0 (7 + 1) = some 0x00 ∧
      (6 : Nat) ≠ 7 ∧ bytesOf frameS1b 6 = some 0x32 := by
  refine ⟨by decide, List.Perm.swap _ _ _, by decide⟩

/-- The longest reply, and an index of every field of it. -/
theorem witness_SingleBitFlipDetected :
    payload57.length ≤ 57 ∧ makeReply 0x00 0x30 payload57 = some frameZ3 ∧
      (∀ i ∈ [0, 1, 2, 3, 4, 5, 6, 62, 63], i < frameZ3.length) ∧ 7 < 8 := by decide +kernel

theorem witness_WellFormedRepliesDecode :
    ([] : List Byte).length ≤ 57 ∧ payload57.length ≤ 57 ∧ payload57.length = 57 := by decide

/-- Both sides of the equivalence hold of the shortest reply. -/
theorem witness_AcceptsOnlyWellFormedReplies :
    ([0x6F, 0x37, 0x03, 0x02, 0x00, 0x30, 0x69] : List Byte).length ≤ 64 ∧
      decodeReply 0x30 (bytesOf [0x6F, 0x37, 0x03, 0x02, 0x00, 0x30, 0x69]) 7 =
        some ⟨.stOk, 0x00, 0⟩ ∧
      makeReply 0x00 0x30 [] = some [0x6F, 0x37, 0x03, 0x02, 0x00, 0x30, 0x69] := by decide

theorem witness_PrematureValLosesNothing : judgedS1b.Inv ∧ ({ full with ovf := true } : State).Inv :=
  ⟨judgedS1b_inv, full_ovf_inv⟩

/-- The last payload byte, one index past it, and no verdict. -/
theorem witness_RdpReadsPayload :
    (judgedS1b.status = .stOk ∧ (0 : Byte).toNat < judgedS1b.payloadLen ∧
        judgedS1b.load (6 + (0 : Byte).toNat) = some 0x32) ∧
      ¬(judgedS1b.status = .stOk ∧ (1 : Byte).toNat < judgedS1b.payloadLen) ∧
      ¬((held frameS1b).status = .stOk ∧ (0 : Byte).toNat < (held frameS1b).payloadLen) ∧
      judgedS1b.Inv :=
  ⟨by decide, by decide, by decide, judgedS1b_inv⟩

/-- The last byte held, the count itself, an index beyond the buffer, and three bytes held. -/
theorem witness_RdbReadsBuffer :
    ((7 : Byte).toNat < judgedS1b.count ∧ judgedS1b.load (7 : Byte).toNat = some 0x5C) ∧
      judgedS1b.count ≤ (8 : Byte).toNat ∧
      (({ full with ovf := true } : State).Inv ∧ 64 ≤ (64 : Byte).toNat) ∧
      (held [0x6F, 0x37, 0x04]).count = 3 ∧ 3 ≤ (held [0x6F, 0x37, 0x04]).count :=
  ⟨by decide, by decide, ⟨full_ovf_inv, by decide⟩, by decide⟩

/-- Two and three bytes held, both flags, and the first and last reserved number. -/
theorem witness_RdrReadsRegisters :
    xor8 judgedS1b.load 0 judgedS1b.count = some 0x00 ∧
      (3 ≤ (held [0x6F, 0x37, 0x04]).count ∧ (held [0x6F, 0x37, 0x04]).load 2 = some 0x04) ∧
      (held [0x6F, 0x37]).count < 3 ∧
      (hdrok judgedS1b.load judgedS1b.count = some true ∧
        complete judgedS1b.load judgedS1b.count = some true) ∧
      7 ≤ (7 : Byte).toNat ∧ 7 ≤ (255 : Byte).toNat := by decide

/-- A complete frame, whose flags are both set, with the ends of its body; and a buffer with neither flag. -/
theorem witness_ParserFlagsMirrorChecks :
    (held frameS1b).Holds frameS1b ∧ (0x0006 : ResponseWord).getLsbD 1 = true ∧
      resp (exec (.rdr .flags) (held frameS1b)) = some 0x0006 ∧ frameS1b[2]? = some 0x04 ∧
      (3 ≤ 3 ∧ 3 ≤ (0x04 : Byte).toNat + 2) ∧ (3 ≤ 6 ∧ 6 ≤ (0x04 : Byte).toNat + 2) ∧
      (held []).Holds [] :=
  ⟨held_holds _ (by decide), by decide, by decide, by decide, by decide, by decide,
    held_holds _ (by decide)⟩

theorem witness_ReadsHaveNoSideEffects :
    (quiet (.rdp 255) = true ∧ ∃ t, exec (.rdp 255) judgedS1b = .next t) ∧
      (quiet .nop = true ∧ ∃ u, exec .nop judgedS1b = .next u) ∧
      ∃ t, exec (.val 0x31) judgedS1b = .next t :=
  ⟨⟨rfl, _, rfl⟩, ⟨rfl, _, rfl⟩, _, rfl⟩

/-- Every kind of refusal arises: the words and states of `witness_ResponseWordShape`. -/
theorem witness_RefusalTable :
    (judgedS1b.count ≤ 64 ∧ (∃ t, perform 0xFFFF judgedS1b = .next t) ∧
        (∃ t, perform 0x4001 judgedS1b = .next t) ∧ (∃ t, perform 0x5008 judgedS1b = .next t) ∧
        ∃ t, perform 0x6007 judgedS1b = .next t) ∧
      (full.count ≤ 64 ∧ ∃ t, perform 0x2000 full = .next t) ∧
      State.reset.count ≤ 64 ∧ ∃ t, perform 0x6005 State.reset = .next t :=
  ⟨⟨by decide, ⟨_, rfl⟩, ⟨_, rfl⟩, ⟨_, rfl⟩, _, rfl⟩, ⟨by decide, _, rfl⟩, by decide, _, rfl⟩

theorem witness_NonStoringCommandsFrame :
    (∃ t, exec (.val 0x31) judgedS1b = .next t) ∧ (Instr.val 0x31 ≠ .clr) ∧
      (∀ b, Instr.val 0x31 ≠ .push b) ∧ (∃ t, exec (.rdp 0) judgedS1b = .next t) ∧
      ∀ e, Instr.rdp 0 ≠ .val e :=
  ⟨⟨_, rfl⟩, nofun, nofun, ⟨_, rfl⟩, nofun⟩

/-- A `PUSH` with one free place, one on a full buffer, a `CLR`. -/
theorem witness_StoringCommandsFrame :
    ((∃ t, exec (.push 0x99) (held (frameZ3.take 63)) = .next t) ∧
        (held (frameZ3.take 63)).count < 64) ∧
      ((∃ t, exec (.push 0x99) full = .next t) ∧ 64 ≤ full.count) ∧
      ∃ t, exec .clr judgedS1b = .next t :=
  ⟨⟨⟨_, rfl⟩, by decide⟩, ⟨⟨_, rfl⟩, by decide⟩, _, rfl⟩

theorem witness_StepKeepsInvariant :
    judgedS1b.Inv ∧ ∃ t, step judgedS1b = .next t := ⟨judgedS1b_inv, _, rfl⟩

theorem witness_StepKeepsBufferCanonical :
    (held frameS1b).buf.wf ∧ ∃ t, step ((held frameS1b).issue 0x2000) = .next t :=
  ⟨by decide, _, rfl⟩

/-- The host's events that push a byte string and judge it. -/
def judging (bs : List Byte) (e : Byte) : List HostEvent :=
  bs.map (fun b => .command (encode (.push b))) ++ [.command (encode (.val e))]

/-- A state reached from reset for every held verdict. -/
theorem witness_ReachableStatesMeetInvariants :
    (∃ s : State, s.Reachable ∧ s.status = .stNone) ∧
      (∃ s : State, s.Reachable ∧ s.status = .stHeader) ∧
      (∃ s : State, s.Reachable ∧ s.status = .stLength) ∧
      (∃ s : State, s.Reachable ∧ s.status = .stFormat) ∧
      (∃ s : State, s.Reachable ∧ s.status = .stResult) ∧
      (∃ s : State, s.Reachable ∧ s.status = .stCommand) ∧
      (∃ s : State, s.Reachable ∧ s.status = .stChecksum) ∧
      ∃ s : State, s.Reachable ∧ s.status = .stOk :=
  ⟨⟨_, ⟨[], 0, rfl⟩, rfl⟩, reachable_header,
    ⟨_, ⟨judging [0x6F, 0x37] 0x30, 3, rfl⟩, rfl⟩,
    ⟨_, ⟨judging [0x6F, 0x37, 0x03, 0x03, 0x00, 0x30, 0x00] 0x30, 8, rfl⟩, rfl⟩,
    ⟨_, ⟨judging [0x6F, 0x37, 0x03, 0x02, 0x02, 0x30, 0x6B] 0x30, 8, rfl⟩, rfl⟩,
    ⟨_, ⟨judging [0x6F, 0x37, 0x03, 0x02, 0x00, 0x30, 0x69] 0x31, 8, rfl⟩, rfl⟩,
    ⟨_, ⟨judging [0x6F, 0x37, 0x03, 0x02, 0x00, 0x30, 0x68] 0x30, 8, rfl⟩, rfl⟩,
    ⟨_, ⟨judging [0x6F, 0x37, 0x03, 0x02, 0x00, 0x30, 0x69] 0x30, 8, rfl⟩, rfl⟩⟩

/-- The flag set after 65 bytes. -/
theorem witness_ReachableStatesMeetInvariants_overflow : ∃ s : State, s.Reachable ∧ s.ovf = true :=
  ⟨_, ⟨List.replicate 65 (.command 0x2000), 65, rfl⟩, rfl⟩

/-- Two states that differ only above the count. -/
theorem witness_BytesAboveCountUnobservable :
    judgedS1b.Inv ∧
      (∀ a, a < judgedS1b.count →
        ({ judgedS1b with buf := cellsFrom 0 (frameS1b ++ [0x99]) } : State).load a =
          judgedS1b.load a) ∧
      Instr.rdp 0 ≠ .clr ∧ (∀ b, Instr.rdp 0 ≠ .push b) ∧ ∃ t, exec (.rdp 0) judgedS1b = .next t :=
  ⟨judgedS1b_inv, by decide, nofun, nofun, _, rfl⟩

/-- An index at both ends of every field of the longest frame, and the checksum of the shortest. -/
theorem witness_FrameFieldsPartition :
    3 ≤ 60 ∧ (∀ i ∈ [0, 1, 2, 3, 4, 5, 6, 62, 63], i < 60 + 4) ∧ 3 ≤ 3 ∧ 6 < 3 + 4 := by decide

/-- The largest payload that has a frame, and the smallest that has none. -/
theorem witness_CommandFramesWellFormed :
    encodeCommand 0xEB 0x30 [0x32] = some [0x37, 0x51, 0x03, 0xEB, 0x30, 0x32, 0x8C] ∧
      ¬253 < (List.replicate 253 (0x00 : Byte)).length ∧
      253 < (List.replicate 254 (0x00 : Byte)).length := ⟨by decide, by rw [List.length_replicate]; decide, by rw [List.length_replicate]; decide⟩

theorem witness_ReplyFramesWellFormed :
    ([] : List Byte).length ≤ 252 ∧ (List.replicate 252 (0x00 : Byte)).length ≤ 252 := ⟨by decide, by rw [List.length_replicate]⟩

/-- The read-brightness command, a string of 64 bytes and a command of 64 bytes. -/
theorem witness_RunningXorBuildsChecksum :
    frameZ3.length ≤ 64 ∧ 5 + ([] : List Byte).length ≤ 64 ∧
      encodeCommand 0xEB 0x30 [] = some [0x37, 0x51, 0x02, 0xEB, 0x30, 0xBF] ∧
      5 + (List.replicate 59 (0x00 : Byte)).length = 64 ∧
      (encodeCommand 0xEB 0x30 (List.replicate 59 0x00)).isSome = true := by decide

theorem witness_DecodeSequenceComputesDecodeReply :
    ([] : List Byte).length ≤ 64 ∧ frameZ3.length ≤ 64 ∧ frameZ3.length = 64 := by decide

/-- Vectors Z4 and Z5: a reply of 65 bytes, and one of 64. -/
theorem witness_BytesBeyondLimitDropped :
    64 < (frameZ3 ++ [0x99]).length ∧
      (∃ F, makeReply 0x00 0x30 (List.replicate 58 0xAA) = some F ∧ 64 < F.length) ∧
      makeReply 0x00 0x30 payload57 = some frameZ3 ∧ frameZ3.length = 64 :=
  ⟨by decide, ⟨_, rfl, by decide⟩, by decide +kernel, by decide⟩

/-- The shortest and the longest reply, with the last index of the payload and one past it. -/
theorem witness_ExchangeDeliversPayload :
    (payload57.length ≤ 57 ∧ makeReply 0x00 0x30 payload57 = some frameZ3 ∧
        payload57[56]? = some 0xAA ∧ payload57.length ≤ (57 : Byte).toNat) ∧
      ([] : List Byte).length ≤ 57 ∧
      makeReply 0x00 0x30 [] = some [0x6F, 0x37, 0x03, 0x02, 0x00, 0x30, 0x69] := by decide +kernel

theorem witness_AssembledWordsDecode :
    assemble "RDR FLAGS".toList = some 0x6006 ∧ assemble "PUSH 255".toList = some 0x20FF := by decide

end Sys2Proof.Tests
end

-- ==== the proofs of the statements of spec 10_state.md ====
section
/-!
PROOFS. The statements of 10_state.md: the reset values, the overflow flag, the parser flags and what holds
in every reachable state. The lemmas come first, in the order of the model's definitions; each obligation is
assembled from them at the end.
-/

namespace Sys2Proof.Machine

/-! ### The checksum over a frame and its trailing byte -/

/-- A range followed by its own XOR has the XOR zero (41_validate.md R102). -/
theorem xor8_succ_eq_zero {B : Nat → Option Byte} {n : Nat} {c : Byte}
    (hsum : xor8 B 0 n = some c) (hlast : B n = some c) : xor8 B 0 (n + 1) = some 0x00 := by
  simp [xor8_succ B 0 n (Nat.zero_le n), hsum, hlast]

/-! ### The parser flags by their definitions (10_state.md R19) -/

theorem hdrok_eq_true_iff (B : Nat → Option Byte) (n : Nat) :
    hdrok B n = some true ↔ 2 ≤ n ∧ B 0 = some 0x6F ∧ B 1 = some 0x37 := by
  by_cases hn : n < 2
  · simp [hdrok, hn, Nat.not_le.2 hn]
  · simp [hdrok, hn, Nat.not_lt.1 hn, Option.bind_eq_some_iff]

theorem complete_eq_true_iff (B : Nat → Option Byte) (n : Nat) :
    complete B n = some true ↔
      3 ≤ n ∧ ∃ l : Byte, B 2 = some l ∧ 3 ≤ l.toNat ∧ n = l.toNat + 4 := by
  by_cases hn : n < 3
  · simp [complete, hn, Nat.not_le.2 hn]
  · have hdef : complete B n = some true ↔
        ∃ l : Byte, B 2 = some l ∧ fixedBody ≤ l.toNat ∧ n = l.toNat + overhead := by
      simp [complete, hn, Option.bind_eq_some_iff, -fixedBody_eq, -overhead_eq]
    simp [hdef, Nat.not_lt.1 hn]

/-- A complete frame has its header, its length byte, the three fixed body bytes and its checksum. -/
theorem seven_le_of_complete {B : Nat → Option Byte} {n : Nat} (h : complete B n = some true) :
    7 ≤ n := by
  obtain ⟨-, l, -, hl3, hl⟩ := (complete_eq_true_iff B n).1 h
  omega

/-- The bits of the `FLAGS` response (42_readout.md R129). -/
theorem flagsWord_response_bits (h c o : Bool) :
    let f := (Answer.value ((flagsWord h c o).setWidth 8)).word
    f.getLsbD 0 = o ∧ f.getLsbD 1 = c ∧ f.getLsbD 2 = h ∧ f.extractLsb' 3 13 = 0 := by
  cases h <;> cases c <;> cases o <;> decide

/-- `RDR FLAGS` answers the three flags. -/
theorem exec_rdr_flags {s : State} {h c : Bool} (hh : hdrok s.load s.count = some h)
    (hc : complete s.load s.count = some c) :
    exec (.rdr .flags) s = .next (s.respond (.value ((flagsWord h c s.ovf).setWidth 8))) := by
  have hread : s.readReg .flags = some (.value ((flagsWord h c s.ovf).setWidth 8)) := by
    simp [State.readReg, State.flags, hh, hc]
  exact State.answer_next.2 ⟨_, hread, rfl⟩

/-! ### Byte strings as buffers -/

/-- A byte string has a byte at each index below its length. -/
theorem bytesOf_isSome (F : List Byte) (i : Nat) (h : i < F.length) : ∃ x, bytesOf F i = some x :=
  ⟨F[i], List.getElem?_eq_getElem h⟩

theorem State.Holds.hdrok_eq {s : State} {bs : List Byte} (h : s.Holds bs) :
    hdrok s.load s.count = hdrok (bytesOf bs) bs.length := by
  obtain ⟨hcount, hload⟩ := h
  rw [hcount]
  exact hdrok_congr _ _ _ hload

theorem State.Holds.complete_eq {s : State} {bs : List Byte} (h : s.Holds bs) :
    complete s.load s.count = complete (bytesOf bs) bs.length := by
  obtain ⟨hcount, hload⟩ := h
  rw [hcount]
  exact complete_congr _ _ _ hload

/-- With the reply header put in place of its first two bytes, a buffer passes check 1. -/
theorem hdrok_withHeader (bs : List Byte) :
    hdrok (bytesOf (0x6F :: 0x37 :: bs.drop 2)) (2 + (bs.length - 2)) = some true :=
  (hdrok_eq_true_iff _ _).2 ⟨by omega, rfl, rfl⟩

/-- `COMPLETE` does not see the header bytes. -/
theorem complete_withHeader_iff (bs : List Byte) :
    complete (bytesOf (0x6F :: 0x37 :: bs.drop 2)) (2 + (bs.length - 2)) = some true ↔
      complete (bytesOf bs) bs.length = some true := by
  have hbyte : bytesOf (0x6F :: 0x37 :: bs.drop 2) 2 = bytesOf bs 2 := by simp [bytesOf]
  rw [complete_eq_true_iff, complete_eq_true_iff, hbyte]
  by_cases hn : 3 ≤ bs.length
  · rw [Nat.add_sub_cancel' (by omega)]
  · simp [hn, show ¬3 ≤ 2 + (bs.length - 2) by omega]

/-! ### Fields of a frame (20_memory.md R32) -/

/-- The checksum byte follows the body. -/
theorem fieldOf_checksum {l : Nat} (hl : 3 ≤ l) : fieldOf (l + 3) l = some .csum := by
  simp [fieldOf, Nat.not_lt.2 hl, show l ≠ 0 by omega, show l ≠ 1 by omega, show l ≠ 2 by omega]

/-- The indices from 3 to `L + 2` are the body. -/
theorem fieldOf_body {i l : Nat} (hl : 3 ≤ l) (h3 : 3 ≤ i) (hi : i ≤ l + 2) :
    ∃ g, fieldOf i l = some g ∧ g.inBody = true := by
  have hl' : ¬l < fixedBody := Nat.not_lt.2 hl
  obtain rfl | rfl | rfl | h6 : i = 3 ∨ i = 4 ∨ i = 5 ∨ 6 ≤ i := by omega
  · exact ⟨.marker, if_neg hl', rfl⟩
  · exact ⟨.result, if_neg hl', rfl⟩
  · exact ⟨.opcode, if_neg hl', rfl⟩
  · refine ⟨.data, ?_, rfl⟩
    simp only [fieldOf, if_neg hl', if_pos hi]
    rw [if_neg (by omega), if_neg (by omega), if_neg (by omega), if_neg (by omega), if_neg (by omega)]

/-! ### Verdicts -/

/-- Checks 3 to 6 report none of the verdicts of checks 1 and 2. -/
theorem decodeBody_status {e : Byte} {B : Nat → Option Byte} {l : Nat} {v : Verdict}
    (h : decodeBody e B l = some v) : v.status ≠ .stHeader ∧ v.status ≠ .stLength := by
  obtain ⟨m, -, ⟨-, rfl⟩ | ⟨-, rc, -, ⟨-, rfl⟩ | ⟨-, o, -, ⟨-, rfl⟩ | ⟨-, x, c, -, -, hx⟩⟩⟩⟩ :=
    decodeBody_cases h
  · simp
  · simp
  · simp
  · rcases hx with ⟨-, rfl⟩ | ⟨-, rfl⟩ <;> simp

/-- Checks 1 and 2 through the parser flags (10_state.md R19): `HDROK` decides the first, and once it has
passed `COMPLETE` decides the second. -/
theorem decodeReply_flag_cases {e : Byte} {B : Nat → Option Byte} {n : Nat} {v : Verdict}
    (h : decodeReply e B n = some v) :
    (hdrok B n ≠ some true ∧ v.status = .stHeader) ∨
    (hdrok B n = some true ∧ complete B n ≠ some true ∧ v.status = .stLength) ∨
    (hdrok B n = some true ∧ complete B n = some true ∧
      v.status ≠ .stHeader ∧ v.status ≠ .stLength) := by
  simp only [ne_eq, hdrok_eq_true_iff, complete_eq_true_iff]
  rcases decodeReply_cases h with
    ⟨rfl, hfail⟩ | ⟨hn, h0, h1, ⟨rfl, hfail⟩ | ⟨l, h2, hl, hl3, hbody⟩⟩
  · refine .inl ⟨fun ⟨hn, h0, h1⟩ => ?_, rfl⟩
    rcases hfail with hlt | hne | hne
    · omega
    · exact hne h0
    · exact hne h1
  · refine .inr (.inl ⟨⟨hn, h0, h1⟩, fun ⟨hn3, l, h2, hl3, hl⟩ => ?_, rfl⟩)
    rcases hfail with htwo | ⟨-, l', h2', hbad⟩
    · omega
    · obtain rfl : l = l' := Option.some.inj (h2.symm.trans h2')
      omega
  · exact .inr (.inr ⟨⟨hn, h0, h1⟩, ⟨by omega, l, h2, hl3, hl.symm⟩, decodeBody_status hbody⟩)

/-- `HDROK` is set exactly when check 1 passes (10_state.md R19). -/
theorem hdrok_iff_check_one {e : Byte} {B : Nat → Option Byte} {n : Nat} {v : Verdict}
    (h : decodeReply e B n = some v) : hdrok B n = some true ↔ v.status ≠ .stHeader := by
  rcases decodeReply_flag_cases h with ⟨hh, hst⟩ | ⟨hh, -, hst⟩ | ⟨hh, -, hst, -⟩ <;> simp [hh, hst]

/-- Where check 1 passes, `COMPLETE` is set exactly when check 2 passes (10_state.md R19). -/
theorem complete_iff_check_two {e : Byte} {B : Nat → Option Byte} {n : Nat} {v : Verdict}
    (h : decodeReply e B n = some v) (hh : hdrok B n = some true) :
    complete B n = some true ↔ v.status ≠ .stLength := by
  rcases decodeReply_flag_cases h with ⟨hno, -⟩ | ⟨-, hc, hst⟩ | ⟨-, hc, -, hst⟩
  · exact absurd hh hno
  · simp [hc, hst]
  · simp [hc, hst]

/-- What each verdict records: an error nothing but its status, `ST_RESULT` the code found in the frame, and
`ST_OK` the payload length of the frame it accepted (60_exceptions.md R140; 41_validate.md R101, R103). -/
theorem decodeReply_verdict {e : Byte} {B : Nat → Option Byte} {n : Nat} {v : Verdict}
    (h : decodeReply e B n = some v) :
    (∃ st, st ≠ .stResult ∧ st ≠ .stOk ∧ v = .error st) ∨
    (∃ rc, B 4 = some rc ∧ rc ≠ 0x00 ∧ v = ⟨.stResult, rc, 0⟩) ∨
    (∃ l c : Byte, B 2 = some l ∧ l.toNat + 4 = n ∧ 3 ≤ l.toNat ∧
      B 3 = some 0x02 ∧ B 4 = some 0x00 ∧ xor8 B 0 (l.toNat + 3) = some c ∧
      B (l.toNat + 3) = some c ∧ v = ⟨.stOk, 0x00, l.toNat - 3⟩) := by
  rcases decodeReply_cases h with ⟨rfl, -⟩ | ⟨-, -, -, ⟨rfl, -⟩ | ⟨l, h2, hl, hl3, hbody⟩⟩
  · exact .inl ⟨.stHeader, by simp⟩
  · exact .inl ⟨.stLength, by simp⟩
  obtain ⟨m, h3, ⟨-, rfl⟩ |
    ⟨rfl, rc, h4, ⟨hrc, rfl⟩ | ⟨rfl, o, -, ⟨-, rfl⟩ | ⟨-, x, c, hx, hc, hsum⟩⟩⟩⟩ :=
    decodeBody_cases hbody
  · exact .inl ⟨.stFormat, by simp⟩
  · exact .inr (.inl ⟨rc, h4, hrc, rfl⟩)
  · exact .inl ⟨.stCommand, by simp⟩
  rcases hsum with ⟨-, rfl⟩ | ⟨rfl, rfl⟩
  · exact .inl ⟨.stChecksum, by simp⟩
  · exact .inr (.inr ⟨l, x, h2, hl, hl3, h3, h4, hx, hc, rfl⟩)

section verdict_fields

variable {e : Byte} {B : Nat → Option Byte} {n : Nat} {v : Verdict}

theorem decodeReply_rcode_of_ne_result (h : decodeReply e B n = some v)
    (hst : v.status ≠ .stResult) : v.rcode = 0x00 := by
  rcases decodeReply_verdict h with
    ⟨st, -, -, rfl⟩ | ⟨rc, -, -, rfl⟩ | ⟨l, c, -, -, -, -, -, -, -, rfl⟩
  · rfl
  · exact absurd rfl hst
  · rfl

theorem decodeReply_rcode_of_result (h : decodeReply e B n = some v) (hst : v.status = .stResult) :
    B 4 = some v.rcode ∧ v.rcode ≠ 0x00 := by
  rcases decodeReply_verdict h with
    ⟨st, hne, -, rfl⟩ | ⟨rc, h4, hrc, rfl⟩ | ⟨l, c, -, -, -, -, -, -, -, rfl⟩
  · exact absurd hst hne
  · exact ⟨h4, hrc⟩
  · cases hst

theorem decodeReply_plen_of_ne_ok (h : decodeReply e B n = some v) (hst : v.status ≠ .stOk) :
    v.plen = 0 := by
  rcases decodeReply_verdict h with
    ⟨st, -, -, rfl⟩ | ⟨rc, -, -, rfl⟩ | ⟨l, c, -, -, -, -, -, -, -, rfl⟩
  · rfl
  · rfl
  · exact absurd rfl hst

/-- What an accepted buffer looks like (10_state.md R26). -/
theorem decodeReply_accepted (h : decodeReply e B n = some v) (hst : v.status = .stOk) :
    (∃ l : Byte, B 2 = some l ∧ l.toNat + 4 = n) ∧ B 3 = some 0x02 ∧ B 4 = some 0x00 ∧
      xor8 B 0 n = some 0x00 ∧ v.plen + 7 = n := by
  rcases decodeReply_verdict h with
    ⟨st, -, hne, rfl⟩ | ⟨rc, -, -, rfl⟩ | ⟨l, c, h2, rfl, hl3, h3, h4, hsum, hc, rfl⟩
  · exact absurd hst hne
  · cases hst
  · exact ⟨⟨l, h2, rfl⟩, h3, h4, xor8_succ_eq_zero hsum hc, by dsimp only; omega⟩

/-- A verdict other than those of checks 1 and 2 comes with both flags. -/
theorem decodeReply_flags_of_late (h : decodeReply e B n = some v) (hh : v.status ≠ .stHeader)
    (hl : v.status ≠ .stLength) : hdrok B n = some true ∧ complete B n = some true :=
  have hhdr := (hdrok_iff_check_one h).2 hh
  ⟨hhdr, (complete_iff_check_two h hhdr).2 hl⟩

end verdict_fields

/-! ### The overflow flag (10_state.md R16) -/

/-- All that a command can do to `OVF`. -/
theorem exec_next_ovf {i : Instr} {s t : State} (h : exec i s = .next t) :
    t.ovf = s.ovf ∨ (i = .clr ∧ t.ovf = false) ∨
      (64 ≤ s.count ∧ (∃ b, i = .push b) ∧ t.ovf = true) := by
  cases i with
  | nop => cases h; exact .inl rfl
  | clr => cases h; exact .inr (.inl ⟨rfl, rfl⟩)
  | push b =>
    rcases exec_push_next h with ⟨-, rfl⟩ | ⟨hfull, rfl⟩
    · exact .inl rfl
    · exact .inr (.inr ⟨hfull, ⟨b, rfl⟩, rfl⟩)
  | val e => obtain ⟨v, -, rfl⟩ := exec_val_next h; exact .inl rfl
  | rdp k => rcases exec_rdp_next h with ⟨-, -, b, -, rfl⟩ | ⟨-, rfl⟩ <;> exact .inl rfl
  | rdb k => rcases exec_rdb_next h with ⟨-, b, -, rfl⟩ | ⟨-, rfl⟩ <;> exact .inl rfl
  | rdr r => obtain ⟨a, -, rfl⟩ := exec_rdr_next h; exact .inl rfl

/-- `VAL` neither reads nor writes `OVF`. -/
theorem exec_val_ovf {e : Byte} {s t : State} (h : exec (.val e) s = .next t) (o : Bool) :
    t.ovf = s.ovf ∧ exec (.val e) { s with ovf := o } = .next { t with ovf := o } := by
  obtain ⟨v, hv, rfl⟩ := exec_val_next h
  have hv' : decodeReply e ({ s with ovf := o } : State).load ({ s with ovf := o } : State).count =
    some v := hv
  exact ⟨rfl, exec_val_of_verdict hv'⟩

/-! ### The views of an empty buffer (10_state.md R25) -/

/-- With no byte held and `OVF` clear, `CSUM` and `FLAGS` read 0x00 and `LEN` is refused. -/
theorem exec_rdr_of_empty {t : State} (hn : t.count = 0) (ho : t.ovf = false) :
    exec (.rdr .csum) t = .next { t with rsp := some 0x0000 } ∧
      exec (.rdr .len) t = .next { t with rsp := some 0x8005 } ∧
      exec (.rdr .flags) t = .next { t with rsp := some 0x0000 } := by
  refine ⟨?_, ?_, ?_⟩
  · have hread : t.readReg .csum = some (.value 0x00) := by simp [State.readReg, State.csum, hn]
    exact State.answer_next.2 ⟨_, hread, rfl⟩
  · have hread : t.readReg .len = some (.refuse .eNoval) := by simp [State.readReg, hn]
    exact State.answer_next.2 ⟨_, hread, rfl⟩
  · have hh : hdrok t.load t.count = some false := by simp [hdrok, hn]
    have hc : complete t.load t.count = some false := by simp [complete, hn]
    have hzero : flagsWord false false t.ovf = 0 := by rw [ho]; rfl
    rw [exec_rdr_flags hh hc, hzero]
    rfl

/-! ### The invariant is kept by every step -/

/-- The invariant does not look at the port (10_state.md R21). -/
theorem State.Inv.withPort {s : State} (h : s.Inv) (inbox : List HostEvent)
    (rsp : Option ResponseWord) : State.Inv { s with inbox := inbox, rsp := rsp } :=
  ⟨h.count_le, h.filled, h.cleared, h.judged, h.overflowed⟩

theorem State.Inv.respond {s : State} (h : s.Inv) (a : Answer) : (s.respond a).Inv :=
  h.withPort s.inbox (some a.word)

theorem State.Inv.taken {s : State} (h : s.Inv) (rest : List HostEvent) : (s.taken rest).Inv :=
  h.withPort rest s.rsp

/-- `CLR` and reset meet the invariant from any state. -/
theorem State.clearBlock_inv (s : State) : s.clearBlock.Inv where
  count_le := Nat.zero_le _
  filled := rfl
  cleared _ := ⟨rfl, rfl⟩
  judged h := absurd rfl h
  overflowed h := nomatch h

theorem resetEvent_inv (s : State) : (resetEvent s).Inv :=
  s.clearBlock_inv.withPort s.inbox none

theorem State.resetWith_inv (evs : List HostEvent) : (State.resetWith evs).Inv :=
  (State.resetWith evs).clearBlock_inv

/-- A byte appended at index `CNT` extends the indices listed to those below `CNT + 1`. -/
theorem State.Inv.pushByte {s : State} (h : s.Inv) (b : Byte) (hlt : s.count < 64) :
    (s.pushByte b).Inv where
  count_le := by rw [s.pushByte_count b hlt]; exact hlt
  filled := by
    have hbelow : ∀ c ∈ s.buf, c.1 < s.count := fun c hc =>
      List.mem_range.1 (h.filled ▸ List.mem_map_of_mem hc)
    rw [s.pushByte_count b hlt, State.pushByte_buf, Memory.write_append _ _ _ hbelow,
      List.map_append, h.filled, List.range_succ]
    rfl
  cleared _ := ⟨rfl, rfl⟩
  judged hst := absurd rfl hst
  overflowed ho := absurd (h.overflowed ho) (Nat.ne_of_lt hlt)

theorem State.Inv.pushFull {s : State} (h : s.Inv) (hfull : 64 ≤ s.count) : s.pushFull.Inv :=
  ⟨h.count_le, h.filled, h.cleared, h.judged, fun _ => Nat.le_antisymm h.count_le hfull⟩

/-- The payload length of a verdict on at most 64 bytes fits `PLEN`, so the register holds it unwrapped. -/
theorem State.writeVerdict_payloadLen {s : State} {e : Byte} {v : Verdict} (hn : s.count ≤ 64)
    (hv : decodeReply e s.load s.count = some v) : (s.writeVerdict v).payloadLen = v.plen := by
  have hle := decodeReply_plen_le hv hn
  exact Nat.mod_eq_of_lt (show v.plen < 2 ^ 6 by omega)

theorem State.Inv.writeVerdict {s : State} {e : Byte} {v : Verdict} (h : s.Inv)
    (hv : decodeReply e s.load s.count = some v) : (s.writeVerdict v).Inv where
  count_le := h.count_le
  filled := h.filled
  cleared hst := absurd hst (decodeReply_ne_none hv)
  judged _ := ⟨e, by rw [State.writeVerdict_payloadLen h.count_le hv]; exact hv⟩
  overflowed := h.overflowed

theorem State.Inv.exec {s t : State} {i : Instr} (h : s.Inv) (hs : exec i s = .next t) : t.Inv := by
  cases i with
  | nop => cases hs; exact h.respond _
  | clr => cases hs; exact s.clearBlock_inv.respond _
  | push b =>
    rcases exec_push_next hs with ⟨hlt, rfl⟩ | ⟨hfull, rfl⟩
    · exact h.pushByte b hlt
    · exact h.pushFull hfull
  | val e => obtain ⟨v, hv, rfl⟩ := exec_val_next hs; exact (h.writeVerdict hv).respond _
  | rdp k => rcases exec_rdp_next hs with ⟨-, -, b, -, rfl⟩ | ⟨-, rfl⟩ <;> exact h.respond _
  | rdb k => rcases exec_rdb_next hs with ⟨-, b, -, rfl⟩ | ⟨-, rfl⟩ <;> exact h.respond _
  | rdr r => obtain ⟨a, -, rfl⟩ := exec_rdr_next hs; exact h.respond _

theorem State.Inv.step {s t : State} (h : s.Inv) (hs : step s = .next t) : t.Inv := by
  rcases step_cases hs with ⟨-, rfl⟩ | ⟨rest, -, rfl⟩ | ⟨cw, rest, -, ⟨i, -, hexec⟩ | ⟨-, rfl⟩⟩
  · exact h
  · exact resetEvent_inv _
  · exact (h.taken rest).exec hexec
  · exact (h.taken rest).respond _

/-- A run that ends in a next state passed through the next state of its first step. -/
theorem run_succ_next {M : Host.Core} {k : Nat} {s t : M.State} (h : M.run (k + 1) s = .next t) :
    ∃ u, M.step s = .next u ∧ M.run k u = .next t := by
  unfold Host.Core.run at h
  split at h
  · exact ⟨_, ‹_›, h⟩
  · cases h
  · cases h

/-- What every step keeps, every run keeps. -/
theorem run_induction {M : Host.Core} {P : M.State → Prop}
    (hstep : ∀ s t, P s → M.step s = .next t → P t) (k : Nat) {s t : M.State} (hs : P s)
    (hrun : M.run k s = .next t) : P t := by
  induction k generalizing s with
  | zero => cases hrun; exact hs
  | succ k ih =>
    obtain ⟨u, hnext, hrest⟩ := run_succ_next hrun
    exact ih (hstep s u hs hnext) hrest

/-- Every state a run from reset reaches meets the invariant. -/
theorem State.Reachable.inv {s : State} (h : s.Reachable) : s.Inv := by
  obtain ⟨evs, k, hrun⟩ := h
  exact run_induction (M := Sys2Proof.core) (P := State.Inv) (fun _ _ => State.Inv.step) k
    (State.resetWith_inv evs) hrun

/-! ### What the invariant says of the registers (10_state.md R26) -/

theorem Status.code_le (st : Status) : st.code.toNat ≤ 7 := by cases st <;> decide

theorem State.Inv.rcode_eq_zero {s : State} (h : s.Inv) (hst : s.status ≠ .stResult) :
    s.rcode = 0x00 := by
  by_cases hnone : s.status = .stNone
  · exact (h.cleared hnone).1
  · obtain ⟨e, hv⟩ := h.judged hnone
    exact decodeReply_rcode_of_ne_result hv hst

theorem State.Inv.payloadLen_eq_zero {s : State} (h : s.Inv) (hst : s.status ≠ .stOk) :
    s.payloadLen = 0 := by
  by_cases hnone : s.status = .stNone
  · exact congrArg BitVec.toNat (h.cleared hnone).2
  · obtain ⟨e, hv⟩ := h.judged hnone
    exact decodeReply_plen_of_ne_ok hv hst

/-- A verdict other than those of checks 1 and 2 is held only over a frame with both flags set. -/
theorem State.Inv.flags_of_late {s : State} (h : s.Inv) (hnone : s.status ≠ .stNone)
    (hh : s.status ≠ .stHeader) (hl : s.status ≠ .stLength) :
    7 ≤ s.count ∧ hdrok s.load s.count = some true ∧ complete s.load s.count = some true := by
  obtain ⟨e, hv⟩ := h.judged hnone
  obtain ⟨hhdr, hcomp⟩ := decodeReply_flags_of_late hv hh hl
  exact ⟨seven_le_of_complete hcomp, hhdr, hcomp⟩

theorem State.Inv.result {s : State} (h : s.Inv) (hst : s.status = .stResult) :
    7 ≤ s.count ∧ s.load 4 = some s.rcode ∧ s.rcode ≠ 0x00 := by
  have hnone : s.status ≠ .stNone := by simp [hst]
  obtain ⟨e, hv⟩ := h.judged hnone
  obtain ⟨hcount, -, -⟩ := h.flags_of_late hnone (by simp [hst]) (by simp [hst])
  exact ⟨hcount, decodeReply_rcode_of_result hv hst⟩

theorem State.Inv.accepted {s : State} (h : s.Inv) (hst : s.status = .stOk) :
    7 ≤ s.count ∧ s.load 0 = some 0x6F ∧ s.load 1 = some 0x37 ∧
      (∃ l : Byte, s.load 2 = some l ∧ l.toNat + 4 = s.count) ∧
      s.load 3 = some 0x02 ∧ s.load 4 = some 0x00 ∧ xor8 s.load 0 s.count = some 0x00 ∧
      s.payloadLen + 7 = s.count := by
  have hnone : s.status ≠ .stNone := by simp [hst]
  obtain ⟨e, hv⟩ := h.judged hnone
  obtain ⟨hcount, hhdr, -⟩ := h.flags_of_late hnone (by simp [hst]) (by simp [hst])
  obtain ⟨-, h0, h1⟩ := (hdrok_eq_true_iff _ _).1 hhdr
  exact ⟨hcount, h0, h1, decodeReply_accepted hv hst⟩

/-! ### The obligations -/

/-- Settles O8: the values are those of `clearBlock`, and the views see an empty buffer. -/
theorem resetValues : Obligations.ResetValues := by
  refine ⟨⟨rfl, rfl, rfl, rfl, rfl, fun _ => rfl⟩, fun s t h => ?_, fun t h => ?_⟩
  · cases h
    exact ⟨rfl, rfl, rfl, rfl, rfl, fun _ => rfl⟩
  · rcases h with rfl | ⟨s, h⟩
    · exact exec_rdr_of_empty rfl rfl
    · cases h
      exact exec_rdr_of_empty rfl rfl

/-- Settles O17, from what a command can do to `OVF`. -/
theorem overflowIsSticky : Obligations.OverflowIsSticky := by
  refine ⟨fun s b hfull => ⟨_, exec_push_of_le s b hfull.ge, rfl⟩, fun i s t h => ?_,
    fun s => ⟨⟨_, exec_clr s, rfl⟩, fun rest => ⟨resetEvent (s.taken rest), rfl, rfl⟩⟩,
    fun e o s t h => exec_val_ovf h o⟩
  rcases exec_next_ovf h with hsame | ⟨hclr, hoff⟩ | ⟨hfull, hpush, hon⟩
  · simp +contextual [hsame]
  · simp [hclr, hoff]
  · simp [hfull, hpush, hon]

/-- Settles O38: each flag is its definition read off the buffer, and `decodeReply_flag_cases` ties the
definitions to checks 1 and 2. -/
theorem parserFlagsMirrorChecks : Obligations.ParserFlagsMirrorChecks := by
  intro s bs hbs
  obtain ⟨h, hh⟩ := hdrok_isSome (bytesOf bs) bs.length (bytesOf_isSome bs)
  obtain ⟨c, hc⟩ := complete_isSome (bytesOf bs) bs.length (bytesOf_isSome bs)
  obtain ⟨bit0, bit1, bit2, rest⟩ := flagsWord_response_bits h c s.ovf
  have hHdr : h = true ↔ hdrok (bytesOf bs) bs.length = some true := by simp [hh]
  have hComp : c = true ↔ complete (bytesOf bs) bs.length = some true := by simp [hc]
  refine ⟨_, exec_rdr_flags (hbs.hdrok_eq.trans hh) (hbs.complete_eq.trans hc), bit0, ?_, ?_, rest,
    fun e => ⟨?_, ?_, ?_⟩⟩
  · rw [bit2, hHdr, hdrok_eq_true_iff]; rfl
  · rw [bit1, hComp, complete_eq_true_iff]; rfl
  · obtain ⟨v, hv⟩ := decodeReply_isSome e (bytesOf bs) bs.length (bytesOf_isSome bs)
    refine ⟨v, hv, ?_⟩
    rw [bit2, hHdr, hdrok_iff_check_one hv]
  · obtain ⟨v, hv⟩ := decodeReply_isSome e (bytesOf (0x6F :: 0x37 :: bs.drop 2)) (2 + (bs.length - 2))
      fun i hi => bytesOf_isSome _ i (by simp; omega)
    refine ⟨v, hv, ?_⟩
    rw [bit1, hComp, ← complete_withHeader_iff,
      complete_iff_check_two hv (hdrok_withHeader bs)]
  · rw [bit1, hComp, complete_eq_true_iff]
    rintro ⟨-, l, h2, hl3, hlen⟩ l' h2'
    obtain rfl : l = l' := Option.some.inj (h2.symm.trans h2')
    rw [hlen]
    exact ⟨rfl, fieldOf_checksum hl3, fun i h3 hi => fieldOf_body hl3 h3 hi⟩

/-- Settles O46: a reachable state meets the invariant, and each item is read off the invariant. -/
theorem reachableStatesMeetInvariants : Obligations.ReachableStatesMeetInvariants := by
  intro s hs
  have h := hs.inv
  refine ⟨h.count_le, s.status.code_le, h.rcode_eq_zero, h.result, h.payloadLen_eq_zero, h.accepted,
    fun hst => ?_, h.overflowed, h.judged⟩
  rcases hst with hst | hst | hst | hst <;>
    exact h.flags_of_late (by simp [hst]) (by simp [hst]) (by simp [hst])

end Sys2Proof.Machine
end

-- ==== the proofs of the statements of spec 20_memory.md ====
section
/-!
PROOFS. The statements of 20_memory.md: a run is the fold of the per-event rules, no read has a side effect,
and the fields of a frame partition its indices. The lemmas come first; each obligation is assembled from
them at the end.
-/

namespace Sys2Proof.Machine

/-! ### Outcomes in sequence -/

theorem andThen_assoc (o : Host.Outcome State Fault Refusal)
    (f g : State → Host.Outcome State Fault Refusal) :
    andThen (andThen o f) g = andThen o fun s => andThen (f s) g := by cases o <;> rfl

section run

variable {M : Host.Core} {s : M.State}

theorem run_succ_of_next {t : M.State} (k : Nat) (h : M.step s = .next t) :
    M.run (k + 1) s = M.run k t := by simp [Host.Core.run, h]

theorem run_succ_of_fault {r : M.Fault} (k : Nat) (h : M.step s = .fault r) :
    M.run (k + 1) s = .fault r := by simp [Host.Core.run, h]

theorem run_succ_of_refused {r : M.Refusal} (k : Nat) (h : M.step s = .refused r) :
    M.run (k + 1) s = .refused r := by simp [Host.Core.run, h]

end run

/-- `k` steps of the block: the run of `core`, at the state's own type so that `andThen` applies to it. -/
def runSteps (k : Nat) (s : State) : Host.Outcome State Fault Refusal := Host.Core.run Sys2Proof.core k s

/-- A run of one step more is a step, then the run. -/
theorem runSteps_succ (k : Nat) (s : State) : runSteps (k + 1) s = andThen (step s) (runSteps k) := by
  cases h : step s with
  | next t => exact run_succ_of_next (M := Sys2Proof.core) k h
  | fault r => exact run_succ_of_fault (M := Sys2Proof.core) k h
  | refused r => exact run_succ_of_refused (M := Sys2Proof.core) k h

/-! ### The port is no input of a rule

What the host does later neither changes what an event does nor is changed by it: the pending events can be
put in place before the rule or after it. -/

/-- Put the pending events of an outcome's state in place. -/
def withInbox (inbox : List HostEvent) (s : State) : Host.Outcome State Fault Refusal :=
  .next (s.taken inbox)

@[simp] theorem State.taken_taken (s : State) (inbox inbox' : List HostEvent) :
    (s.taken inbox).taken inbox' = s.taken inbox' := rfl

theorem State.answer_taken (s : State) (inbox : List HostEvent) (a : Option Answer) :
    (s.taken inbox).answer a = andThen (s.answer a) (withInbox inbox) := by cases a <;> rfl

theorem State.readReg_taken (s : State) (inbox : List HostEvent) (r : Reg) :
    (s.taken inbox).readReg r = s.readReg r :=
  s.readReg_congr (s.taken inbox) r rfl rfl rfl rfl rfl fun _ _ => rfl

theorem exec_taken (i : Instr) (s : State) (inbox : List HostEvent) :
    exec i (s.taken inbox) = andThen (exec i s) (withInbox inbox) := by
  cases i with
  | nop => rfl
  | clr => rfl
  | push b =>
    by_cases hlt : s.count < 64
    · rw [exec_push_of_lt s b hlt, exec_push_of_lt (s.taken inbox) b hlt]; rfl
    · rw [exec_push_of_le s b (by omega), exec_push_of_le (s.taken inbox) b (Nat.not_lt.1 hlt)]; rfl
  | val e =>
    show execVal e _ = andThen (execVal e s) _
    simp only [execVal, State.taken_load, State.taken_count]
    cases decodeReply e s.load s.count <;> rfl
  | rdp k =>
    show execRdp k _ = andThen (execRdp k s) _
    simp only [execRdp, State.answer_taken, State.taken_status, State.taken_payloadLen,
      State.taken_load]
    split <;> rfl
  | rdb k =>
    show execRdb k _ = andThen (execRdb k s) _
    simp only [execRdb, State.answer_taken, State.taken_count, State.taken_load]
    split <;> rfl
  | rdr r =>
    show (s.taken inbox).answer ((s.taken inbox).readReg r) = andThen (s.answer (s.readReg r)) _
    rw [State.readReg_taken, State.answer_taken]

theorem perform_taken (cw : CommandWord) (s : State) (inbox : List HostEvent) :
    perform cw (s.taken inbox) = andThen (perform cw s) (withInbox inbox) := by
  cases hd : decode cw with
  | ok i => rw [perform_ok hd, perform_ok hd, exec_taken]
  | error err => rw [perform_error hd, perform_error hd]; rfl

theorem handle_taken (ev : HostEvent) (s : State) (inbox : List HostEvent) :
    handle ev (s.taken inbox) = andThen (handle ev s) (withInbox inbox) := by
  cases ev with
  | command cw => exact perform_taken cw s inbox
  | reset => rfl

/-- One step with an event pending is the event's rule, with the later events still pending. -/
theorem step_taken_cons (ev : HostEvent) (evs : List HostEvent) (s : State) :
    step (s.taken (ev :: evs)) = andThen (handle ev s) (withInbox evs) :=
  handle_taken ev s evs

/-- The events are taken one by one, each leaving the rest pending (20_memory.md R40). -/
theorem runSteps_taken (evs : List HostEvent) (s : State) :
    runSteps evs.length (s.taken evs) = foldEvents evs (s.taken []) := by
  induction evs generalizing s with
  | nil => rfl
  | cons ev evs ih =>
    calc runSteps (evs.length + 1) (s.taken (ev :: evs))
      _ = andThen (handle ev s) fun t => runSteps evs.length (t.taken evs) := by
          rw [runSteps_succ, step_taken_cons, andThen_assoc]; rfl
      _ = andThen (handle ev s) fun t => foldEvents evs (t.taken []) := by simp only [ih]
      _ = andThen (handle ev (s.taken [])) (foldEvents evs) := by
          rw [handle_taken, andThen_assoc]; rfl

/-! ### Reads (20_memory.md R38) -/

/-- All that a quiet command can do: the response word is written and nothing else. -/
theorem exec_quiet_next {i : Instr} {s t : State} (hq : quiet i = true) (h : exec i s = .next t) :
    ∃ a, t = s.respond a := by
  cases i with
  | nop => cases h; exact ⟨_, rfl⟩
  | clr => cases hq
  | push b => cases hq
  | val e => cases hq
  | rdp k => rcases exec_rdp_next h with ⟨-, -, b, -, rfl⟩ | ⟨-, rfl⟩ <;> exact ⟨_, rfl⟩
  | rdb k => rcases exec_rdb_next h with ⟨-, b, -, rfl⟩ | ⟨-, rfl⟩ <;> exact ⟨_, rfl⟩
  | rdr r => obtain ⟨a, -, rfl⟩ := exec_rdr_next h; exact ⟨a, rfl⟩

theorem State.sameBlock_respond (s : State) (a : Answer) : s.SameBlock (s.respond a) :=
  ⟨rfl, rfl, rfl, rfl, rfl, rfl, rfl⟩

/-- A quiet command leaves every other command's outcome as it was. -/
theorem exec_after_quiet {j : Instr} {s u : State} (hq : quiet j = true) (h : exec j s = .next u)
    (i : Instr) : exec i u = exec i s := by
  obtain ⟨a, rfl⟩ := exec_quiet_next hq h
  exact exec_respond i s a

/-- `VAL` is idempotent: it writes no element that the verdict depends on (41_validate.md R107). -/
theorem exec_val_idempotent {e : Byte} {s t : State} (h : exec (.val e) s = .next t) :
    exec (.val e) t = .next t := by
  obtain ⟨v, hv, rfl⟩ := exec_val_next h
  have hv' : decodeReply e (s.writeVerdict v).load (s.writeVerdict v).count = some v := hv
  rw [exec_respond, exec_val_of_verdict hv']
  rfl

/-! ### The fields of a frame (20_memory.md R32) -/

/-- The map `Field(i, L)`, row by row. -/
theorem fieldOf_cases {i l : Nat} (hl : 3 ≤ l) (hi : i < l + 4) :
    ((i = 0 ∨ i = 1) ∧ fieldOf i l = some .hdr) ∨
    (i = 2 ∧ fieldOf i l = some .len) ∨
    (i = 3 ∧ fieldOf i l = some .marker) ∨
    (i = 4 ∧ fieldOf i l = some .result) ∨
    (i = 5 ∧ fieldOf i l = some .opcode) ∨
    (6 ≤ i ∧ i ≤ l + 2 ∧ fieldOf i l = some .data) ∨
    (i = l + 3 ∧ fieldOf i l = some .csum) := by
  have hl' : ¬l < 3 := Nat.not_lt.2 hl
  obtain ⟨h6, hdata⟩ | rfl | rfl | rfl | rfl | rfl | rfl | rfl :
      (6 ≤ i ∧ i ≤ l + 2) ∨ i = l + 3 ∨ i = 0 ∨ i = 1 ∨ i = 2 ∨ i = 3 ∨ i = 4 ∨ i = 5 := by omega
  · have hne : i ≠ 0 ∧ i ≠ 1 ∧ i ≠ 2 ∧ i ≠ 3 ∧ i ≠ 4 ∧ i ≠ 5 := by omega
    simp [fieldOf, hl', h6, hdata, hne]
  · simp [fieldOf_checksum hl]
  all_goals simp [fieldOf, hl']

/-! ### The obligations -/

/-- Settles O9, by induction over the events: no rule reads or writes those still pending. -/
theorem runIsFoldOfCommandRules : Obligations.RunIsFoldOfCommandRules := runSteps_taken

/-- Settles O39: a quiet command writes the response word alone, which no command sees. -/
theorem readsHaveNoSideEffects : Obligations.ReadsHaveNoSideEffects := by
  refine ⟨fun i s t hq h => ⟨?_, ?_, fun j u hj hu => exec_after_quiet hj hu i⟩, fun e s t h => ?_⟩
  · obtain ⟨a, rfl⟩ := exec_quiet_next hq h
    exact s.sameBlock_respond a
  · rw [exec_after_quiet hq h, h]
  · have hidem := exec_val_idempotent h
    obtain ⟨v, -, rfl⟩ := exec_val_next h
    exact ⟨rfl, rfl, rfl, hidem⟩

/-- Settles O48, row by row of the map. -/
theorem frameFieldsPartition : Obligations.FrameFieldsPartition := by
  intro l i hl hi
  rcases fieldOf_cases hl hi with
    ⟨h, hg⟩ | ⟨h, hg⟩ | ⟨h, hg⟩ | ⟨h, hg⟩ | ⟨h, hg⟩ | ⟨h6, hend, hg⟩ | ⟨h, hg⟩ <;>
    · refine ⟨_, hg, ?_⟩
      simp only [Field.inBody, Field.covered, reduceCtorEq, true_iff, false_iff]
      omega

end Sys2Proof.Machine
end

-- ==== the proofs of the statements of spec 30_encoding.md ====
section
/-!
PROOFS. The statements of 30_encoding.md: the illegal words, the command and reply frames, and the command
sequences that compute a checksum byte and the document's `decode_reply`. The lemmas come first, in the order
of the model's definitions; each obligation is assembled from them at the end.
-/

namespace Sys2Proof

/-! ### Which words are illegal (30_encoding.md R66) -/

theorem noOperand_error_iff (i : Instr) (arg : Byte) :
    (∃ err, noOperand i arg = .error err) ↔ arg ≠ 0 := by
  by_cases h : arg = 0#8 <;> simp [noOperand, h]

theorem Reg.ofNumber_of_seven_le {n : Byte} (h : 7 ≤ n.toNat) : Reg.ofNumber n = .reserved n := by
  unfold Reg.ofNumber
  split
  case h_8 => rfl
  all_goals omega

/-- The operations that take any argument are 2 to 6, those that take none are `NOP` and `CLR`. -/
theorem decodeOp_error_iff (op : BitVec 4) (arg : Byte) :
    (∃ err, decodeOp op arg = .error err) ↔ 7 ≤ op.toNat ∨ (op = 0 ∨ op = 1) ∧ arg ≠ 0 := by
  have hop : op = 0 ∨ op = 1 ↔ op.toNat = 0 ∨ op.toNat = 1 := by
    simp [← BitVec.toNat_inj]
  rw [hop]
  unfold decodeOp
  split
  case h_1 h => simp [noOperand_error_iff, h]
  case h_2 h => simp [noOperand_error_iff, h]
  case h_8 =>
    have h7 : 7 ≤ op.toNat := by grind
    simp [h7]
  all_goals next h => simp [h]

theorem decode_error_iff (cw : CommandWord) :
    (∃ err, decode cw = .error err) ↔
      7 ≤ (opField cw).toNat ∨ rsvField cw ≠ 0 ∨
        ((opField cw = 0 ∨ opField cw = 1) ∧ argField cw ≠ 0) := by
  by_cases hrsv : rsvField cw = 0#4
  · simp [decode, hrsv, decodeOp_error_iff]
  · simp [decode, hrsv]

/-- A word made of an operation and an argument is decoded by its operation. -/
theorem decode_word (op : BitVec 4) (arg : Byte) :
    decode ((op.setWidth 16 <<< 12) ||| arg.setWidth 16) = decodeOp op arg := by
  obtain ⟨hop, hrsv, harg⟩ := Laws.EncodedFields.fields_of_word op arg
  unfold decode
  rw [hop, hrsv, harg]
  rfl

/-- `RDR` with a reserved number is a legal word (30_encoding.md R66). -/
theorem decode_rdr_reserved {n : Byte} (h : 7 ≤ n.toNat) :
    decode (0x6000 ||| n.setWidth 16) = .ok (.rdr (.reserved n)) :=
  calc decode (0x6000 ||| n.setWidth 16)
    _ = .ok (.rdr (Reg.ofNumber n)) := decode_word 0x6 n
    _ = .ok (.rdr (.reserved n)) := by rw [Reg.ofNumber_of_seven_le h]

end Sys2Proof

namespace Sys2Proof.Machine

/-- An illegal word leaves nothing behind: the next word does what it would have done without it. -/
theorem perform_respond (cw : CommandWord) (s : State) (a : Answer) :
    perform cw (s.respond a) = perform cw s := by
  cases hd : decode cw with
  | ok i => rw [perform_ok hd, perform_ok hd, exec_respond]
  | error err => rw [perform_error hd, perform_error hd, State.respond_respond]

/-! ### Frames and their checksum byte (30_encoding.md R54) -/

/-- A checksum over the front of a byte string does not see what follows. -/
theorem xor8_bytesOf_append (F G : List Byte) :
    xor8 (bytesOf (F ++ G)) 0 F.length = xor8 (bytesOf F) 0 F.length :=
  xor8_congr _ _ _ _ fun _ _ hi => List.getElem?_append_left hi

/-- Every byte string has a checksum. -/
theorem xor8_bytesOf_isSome (F : List Byte) : ∃ c, xor8 (bytesOf F) 0 F.length = some c :=
  xor8_isSome _ _ _ fun i _ hi => bytesOf_isSome F i hi

theorem appendChecksum_eq_some_iff (F G : List Byte) :
    appendChecksum F = some G ↔ ∃ c, xor8 (bytesOf F) 0 F.length = some c ∧ G = F ++ [c] := by
  simp [appendChecksum, Option.bind_eq_some_iff, eq_comm (b := G)]

theorem appendChecksum_isSome (F : List Byte) : ∃ G, appendChecksum F = some G := by
  obtain ⟨c, hc⟩ := xor8_bytesOf_isSome F
  exact ⟨_, (appendChecksum_eq_some_iff F _).2 ⟨c, hc, rfl⟩⟩

/-- The fields of a frame in either direction: a header of two bytes, the length byte, the body, and the XOR
of every byte before it. -/
theorem appendChecksum_fields {h0 h1 l : Byte} {body G : List Byte}
    (h : appendChecksum (h0 :: h1 :: l :: body) = some G) :
    G.length = 4 + body.length ∧ G.take 2 = [h0, h1] ∧ G[2]? = some l ∧
      (G.drop 3).take body.length = body ∧
      G[3 + body.length]? = xor8 (bytesOf G) 0 (3 + body.length) := by
  obtain ⟨c, hc, rfl⟩ := (appendChecksum_eq_some_iff _ _).1 h
  have hlen : (h0 :: h1 :: l :: body).length = 3 + body.length := by simp; omega
  refine ⟨by simp; omega, rfl, rfl, List.take_left, ?_⟩
  rw [← hlen, xor8_bytesOf_append, hc, List.getElem?_concat_length]

theorem encodeCommand_of_le {P : List Byte} (h : P.length ≤ 253) (rw o : Byte) :
    encodeCommand rw o P =
      appendChecksum (0x37 :: 0x51 :: BitVec.ofNat 8 (2 + P.length) :: rw :: o :: P) := if_pos h

theorem encodeCommand_of_lt {P : List Byte} (h : 253 < P.length) (rw o : Byte) :
    encodeCommand rw o P = none := if_neg (Nat.not_le.2 h)

theorem encodeCommand_eq_none_iff (rw o : Byte) (P : List Byte) :
    encodeCommand rw o P = none ↔ 253 < P.length := by
  refine ⟨fun hnone => Nat.lt_of_not_le fun hle => ?_, fun h => encodeCommand_of_lt h rw o⟩
  obtain ⟨F, hF⟩ := appendChecksum_isSome
    (0x37 :: 0x51 :: BitVec.ofNat 8 (2 + P.length) :: rw :: o :: P)
  rw [encodeCommand_of_le hle, hF] at hnone
  cases hnone

/-- A command frame has at most 253 data bytes. -/
theorem length_le_of_encodeCommand {rw o : Byte} {P F : List Byte}
    (h : encodeCommand rw o P = some F) : P.length ≤ 253 :=
  Nat.not_lt.1 fun hlt => by simp [encodeCommand_of_lt hlt] at h

/-- A command frame is its first `5 + p` bytes and their XOR. -/
theorem encodeCommand_checksum {rw o : Byte} {P F : List Byte} (h : encodeCommand rw o P = some F) :
    ∃ c, F[5 + P.length]? = some c ∧ (F.take (5 + P.length)).length = 5 + P.length ∧
      xor8 (bytesOf (F.take (5 + P.length))) 0 (F.take (5 + P.length)).length = some c := by
  rw [encodeCommand_of_le (length_le_of_encodeCommand h)] at h
  generalize hfront : 0x37 :: 0x51 :: BitVec.ofNat 8 (2 + P.length) :: rw :: o :: P = front at h
  have hlen : front.length = 5 + P.length := by simp [← hfront]; omega
  obtain ⟨c, hc, rfl⟩ := (appendChecksum_eq_some_iff _ _).1 h
  rw [← hlen, List.take_left]
  exact ⟨c, List.getElem?_concat_length, rfl, hc⟩

theorem makeReply_of_le {P : List Byte} (h : P.length ≤ 252) (rc o : Byte) :
    makeReply rc o P =
      appendChecksum (0x6F :: 0x37 :: BitVec.ofNat 8 (3 + P.length) :: 0x02 :: rc :: o :: P) :=
  if_pos h

/-! ### What is read from a buffer that holds a byte string -/

theorem State.Holds.csum_eq {s : State} {bs : List Byte} (h : s.Holds bs) :
    s.csum = xor8 (bytesOf bs) 0 bs.length := by
  obtain ⟨hcount, hload⟩ := h
  rw [State.csum, hcount]
  exact xor8_congr _ _ _ _ fun i _ hi => hload i hi

/-- Checks 3 to 6 read only the frame. -/
theorem decodeBody_congr (e : Byte) {B B' : Nat → Option Byte} {l : Nat} (hl : 3 ≤ l)
    (h : ∀ i, i < l + 4 → B i = B' i) : decodeBody e B l = decodeBody e B' l := by
  have hxor : xor8 B 0 (l + 3) = xor8 B' 0 (l + 3) :=
    xor8_congr _ _ _ _ fun i _ hi => h i (by omega)
  unfold decodeBody
  rw [h 3 (by omega), h 4 (by omega), h 5 (by omega), h (l + 3) (by omega), hxor]

/-- `DecodeReply` reads only bytes below `n` (41_validate.md R105). -/
theorem decodeReply_congr (e : Byte) {B B' : Nat → Option Byte} {n : Nat}
    (h : ∀ i, i < n → B i = B' i) : decodeReply e B n = decodeReply e B' n := by
  unfold decodeReply
  by_cases hn : n < 2
  · simp [hn]
  rw [h 0 (by omega), h 1 (by omega)]
  by_cases hn3 : n < 3
  · simp [hn3]
  rw [h 2 (by omega)]
  cases B' 2 with
  | none => rfl
  | some l =>
    by_cases hl : l.toNat + 4 = n
    case neg => simp [hl]
    by_cases hl3 : l.toNat < 3
    · simp [hl3]
    · have hbody : decodeBody e B l.toNat = decodeBody e B' l.toNat :=
        decodeBody_congr e (Nat.not_lt.1 hl3) fun i hi => h i (by omega)
      simp only [Option.bind_eq_bind, Option.bind_some, hbody]

theorem State.Holds.decodeReply_eq {s : State} {bs : List Byte} (h : s.Holds bs) (e : Byte) :
    decodeReply e s.load s.count = decodeReply e (bytesOf bs) bs.length := by
  obtain ⟨hcount, hload⟩ := h
  rw [hcount]
  exact decodeReply_congr e hload

/-! ### Sequences of commands -/

theorem foldInstrs_cons_of_next {i : Instr} {s t : State} (h : exec i s = .next t)
    (is : List Instr) : foldInstrs (i :: is) s = foldInstrs is t := by simp [foldInstrs, h, andThen]

theorem foldInstrs_append (is js : List Instr) (s : State) :
    foldInstrs (is ++ js) s = andThen (foldInstrs is s) (foldInstrs js) := by
  induction is generalizing s with
  | nil => rfl
  | cons i is ih => simp only [List.cons_append, foldInstrs, andThen_assoc, ← ih]

theorem foldInstrs_singleton (i : Instr) (s : State) : foldInstrs [i] s = exec i s := by
  show andThen (exec i s) _ = _
  cases exec i s <;> rfl

/-- After `CLR` the empty string is held. -/
theorem State.clearBlock_holds (s : State) : s.clearBlock.Holds [] :=
  ⟨rfl, fun _ hi => absurd hi (Nat.not_lt_zero _)⟩

/-- The byte pushed stands after those held. -/
theorem State.Holds.pushByte {s : State} {bs : List Byte} (h : s.Holds bs) (b : Byte)
    (hlt : bs.length < 64) : (s.pushByte b).Holds (bs ++ [b]) := by
  obtain ⟨hcount, hload⟩ := h
  refine ⟨by rw [s.pushByte_count b (hcount ▸ hlt), hcount, List.length_append]; rfl, fun i hi => ?_⟩
  rw [State.load, State.pushByte_buf, Memory.read_write, hcount]
  split
  · next hlast => rw [hlast, List.getElem?_concat_length]
  · next hne =>
    have hi' : i < bs.length := by simp at hi; omega
    rw [List.getElem?_append_left hi']
    exact hload i hi'

/-- Pushes that fit the buffer append their bytes in order and leave `OVF` alone. -/
theorem foldInstrs_push {s : State} {bs : List Byte} (h : s.Holds bs) (cs : List Byte)
    (hfit : bs.length + cs.length ≤ 64) :
    ∃ t, foldInstrs (cs.map Instr.push) s = .next t ∧ t.Holds (bs ++ cs) ∧ t.ovf = s.ovf := by
  induction cs generalizing s bs with
  | nil => exact ⟨s, rfl, by rwa [List.append_nil], rfl⟩
  | cons c cs ih =>
    rw [List.length_cons] at hfit
    have hlt : bs.length < 64 := by omega
    obtain ⟨t, hrun, hholds, hovf⟩ := ih (h.pushByte c hlt) (by simp; omega)
    have hexec : exec (.push c) s = .next (s.pushByte c) := exec_push_of_lt s c (h.1.symm ▸ hlt)
    refine ⟨t, ?_, by simpa using hholds, hovf⟩
    rw [List.map_cons, foldInstrs_cons_of_next hexec, hrun]

/-- From every state, a command after `CLR` and the pushes of at most 64 bytes finds those bytes held and
`OVF` clear. -/
theorem foldInstrs_clr_push (s : State) (bs : List Byte) (hfit : bs.length ≤ 64) :
    ∃ t, t.Holds bs ∧ t.ovf = false ∧
      ∀ i, foldInstrs (.clr :: (bs.map Instr.push ++ [i])) s = exec i t := by
  obtain ⟨t, hrun, hholds, hovf⟩ :=
    foldInstrs_push (s := s.clearBlock.respond (.value 0x00)) s.clearBlock_holds bs (by simpa using hfit)
  refine ⟨t, hholds, hovf, fun i => ?_⟩
  rw [foldInstrs_cons_of_next (exec_clr s), foldInstrs_append, hrun]
  exact foldInstrs_singleton i t

/-- After `CLR` and the pushes of at most 64 bytes, `RDR CSUM` answers their XOR (30_encoding.md R61). -/
theorem foldInstrs_clr_push_csum (s : State) {F : List Byte} (hfit : F.length ≤ 64) {c : Byte}
    (hc : xor8 (bytesOf F) 0 F.length = some c) :
    ∃ t, foldInstrs (.clr :: (F.map Instr.push ++ [.rdr .csum])) s = .next t ∧
      t.rsp = some (c.setWidth 16) := by
  obtain ⟨u, hholds, -, hrun⟩ := foldInstrs_clr_push s F hfit
  have hread : u.readReg .csum = some (.value c) := by simp [State.readReg, hholds.csum_eq, hc]
  exact ⟨_, (hrun _).trans (State.answer_next.2 ⟨_, hread, rfl⟩), rfl⟩

/-- The word `VAL` answers is the status code (30_encoding.md R64). -/
theorem Status.value_word (st : Status) :
    (Answer.value (st.code.setWidth 8)).word = st.code.setWidth 16 := by cases st <;> rfl

/-- What `VAL` leaves on a buffer that holds at most 64 bytes: the bytes, and the verdict on them. -/
theorem State.Holds.exec_val {s : State} {bs : List Byte} (h : s.Holds bs) (hfit : bs.length ≤ 64)
    (e : Byte) :
    ∃ t v, exec (.val e) s = .next t ∧ decodeReply e (bytesOf bs) bs.length = some v ∧
      t.Holds bs ∧ t.status = v.status ∧ t.rcode = v.rcode ∧ t.payloadLen = v.plen ∧
      t.ovf = s.ovf ∧ t.rsp = some (v.status.code.setWidth 16) := by
  obtain ⟨v, hv⟩ := decodeReply_isSome e (bytesOf bs) bs.length (bytesOf_isSome bs)
  have hv' : decodeReply e s.load s.count = some v := (h.decodeReply_eq e).trans hv
  have hplen : (s.writeVerdict v).payloadLen = v.plen :=
    State.writeVerdict_payloadLen (h.1.symm ▸ hfit) hv'
  refine ⟨_, v, exec_val_of_verdict hv', hv, h, rfl, rfl, hplen, rfl, ?_⟩
  rw [State.respond_rsp, v.status.value_word]

/-! ### The obligations -/

/-- Settles O4: an illegal word writes the response word alone, which no command sees. -/
theorem illegalWordsRefused : Obligations.IllegalWordsRefused := by
  refine ⟨decode_error_iff, fun cw err s h => ?_, fun n s hn => ⟨decode_rdr_reserved hn, rfl⟩⟩
  rw [perform_error h]
  exact ⟨rfl, fun cw' => perform_respond cw' s _⟩

/-- Settles O49, by the fields of a frame whose body is `rw`, `o` and the data. -/
theorem commandFramesWellFormed : Obligations.CommandFramesWellFormed := by
  refine ⟨rfl, fun rw o P => ⟨encodeCommand_eq_none_iff rw o P, fun F hF => ?_⟩⟩
  have hle := length_le_of_encodeCommand hF
  rw [encodeCommand_of_le hle] at hF
  have hbody : (rw :: o :: P).length = 2 + P.length := by simp; omega
  obtain ⟨hlen, hhdr, hl, hdrop, hsum⟩ := appendChecksum_fields hF
  rw [hbody] at hlen hdrop hsum
  rw [← Nat.add_assoc] at hlen hsum
  exact ⟨hlen, hhdr, ⟨_, hl, Nat.mod_eq_of_lt (by omega)⟩, hdrop, hsum⟩

/-- Settles O50, by the fields of a frame whose body is the marker, `rc`, `o` and the data. -/
theorem replyFramesWellFormed : Obligations.ReplyFramesWellFormed := by
  intro rc o P hle
  obtain ⟨F, hF⟩ := appendChecksum_isSome
    (0x6F :: 0x37 :: BitVec.ofNat 8 (3 + P.length) :: 0x02 :: rc :: o :: P)
  have hbody : (0x02 :: rc :: o :: P).length = 3 + P.length := by simp; omega
  obtain ⟨hlen, hhdr, hl, hdrop, hsum⟩ := appendChecksum_fields hF
  rw [hbody] at hlen hdrop hsum
  rw [← Nat.add_assoc] at hlen hsum
  exact ⟨F, (makeReply_of_le hle rc o).trans hF, hlen, hhdr,
    ⟨_, hl, Nat.mod_eq_of_lt (by omega)⟩, hdrop, hsum, by omega⟩

/-- Settles O51: `CSUM` is the XOR of the bytes held, and a command frame ends in the XOR of the others. -/
theorem runningXorBuildsChecksum : Obligations.RunningXorBuildsChecksum := by
  refine ⟨fun s F hfit => ?_, fun s rw o P F hfit hF => ?_, by decide⟩
  · obtain ⟨c, hc⟩ := xor8_bytesOf_isSome F
    obtain ⟨t, hrun, hrsp⟩ := foldInstrs_clr_push_csum s hfit hc
    exact ⟨t, c, hrun, hc, hrsp⟩
  · obtain ⟨c, hlast, hlen, hc⟩ := encodeCommand_checksum hF
    obtain ⟨t, hrun, hrsp⟩ := foldInstrs_clr_push_csum s (hlen.symm ▸ hfit) hc
    exact ⟨t, c, hrun, hlast, hrsp⟩

/-- Settles O52: the pushes leave the bytes held, and `VAL` judges the bytes held. -/
theorem decodeSequenceComputesDecodeReply : Obligations.DecodeSequenceComputesDecodeReply := by
  refine ⟨fun _ => rfl, fun _ _ => rfl, rfl, fun s e bs hfit => ?_⟩
  obtain ⟨u, hholds, hovf, hrun⟩ := foldInstrs_clr_push s bs hfit
  obtain ⟨t, v, hval, hv, hkeep, hst, hrc, hpl, ho, hrsp⟩ := hholds.exec_val hfit e
  exact ⟨t, v, (hrun _).trans hval, hv, hkeep, hst, hrc, hpl, ho.trans hovf, hrsp⟩

end Sys2Proof.Machine
end

-- ==== the proofs of the statements of spec 40_intake.md ====
section
/-!
PROOFS. The statements of 40_intake.md: what `NOP`, `CLR` and `PUSH` do, that a held verdict is on the present
contents, and that intake does not look at the bytes it takes. The lemmas come first, in the order of the
model's definitions; each obligation is assembled from them at the end.
-/

namespace Sys2Proof

/-! ### The word of a command (30_encoding.md R62, R65) -/

theorem toNat_word (op : BitVec 4) (arg : Byte) :
    ((op.setWidth 16 <<< 12) ||| arg.setWidth 16).toNat = 4096 * op.toNat + arg.toNat := by
  have harg : arg.toNat < 2 ^ 12 := by omega
  have hop : op.toNat * 2 ^ 12 < 2 ^ 16 := by omega
  rw [BitVec.toNat_or, BitVec.toNat_shiftLeft, BitVec.toNat_setWidth_of_le (by decide),
    BitVec.toNat_setWidth_of_le (by decide), Nat.shiftLeft_eq, Nat.mod_eq_of_lt hop,
    ← Nat.shiftLeft_eq, ← Nat.shiftLeft_add_eq_or_of_lt harg, Nat.shiftLeft_eq]
  omega

theorem encode_toNat (i : Instr) : (encode i).toNat = 4096 * i.op.toNat + i.arg.toNat :=
  toNat_word i.op i.arg

/-- With the bits between them clear, a word is its operation and its argument. -/
theorem word_of_fields {cw : CommandWord} (h : rsvField cw = 0) :
    ((opField cw).setWidth 16 <<< 12) ||| (argField cw).setWidth 16 = cw := by
  have hrsv : cw.toNat / 256 % 16 = 0 := by
    simpa [rsvField, BitVec.extractLsb', Nat.shiftRight_eq_div_pow] using congrArg BitVec.toNat h
  have hop : (opField cw).toNat = cw.toNat / 4096 % 16 := by
    simp [opField, Nat.shiftRight_eq_div_pow]
  have harg : (argField cw).toNat = cw.toNat % 256 := by simp [argField]
  apply BitVec.eq_of_toNat_eq
  rw [toNat_word, hop, harg]
  omega

theorem Reg.number_ofNumber (n : Byte) : (Reg.ofNumber n).number = n := by
  unfold Reg.ofNumber
  split
  case h_8 => rfl
  all_goals next h => exact (BitVec.eq_of_toNat_eq h).symm

/-- A command that takes no operand is read from the argument zero alone. -/
theorem noOperand_eq_ok {i j : Instr} {arg : Byte} (h : noOperand i arg = .ok j) :
    arg = 0 ∧ j = i := by
  unfold noOperand at h
  split at h
  · cases h; exact ⟨‹_›, rfl⟩
  · cases h

/-- The decoder drops no bit: a command has the operation and the argument it was read from. -/
theorem decodeOp_eq_ok {op : BitVec 4} {arg : Byte} {i : Instr} (h : decodeOp op arg = .ok i) :
    i.op = op ∧ i.arg = arg := by
  unfold decodeOp at h
  split at h
  case h_1 hop | h_2 hop =>
    obtain ⟨rfl, rfl⟩ := noOperand_eq_ok h
    exact ⟨(BitVec.eq_of_toNat_eq hop).symm, rfl⟩
  case h_7 hop =>
    cases h
    exact ⟨(BitVec.eq_of_toNat_eq hop).symm, Reg.number_ofNumber arg⟩
  case h_8 => cases h
  all_goals next hop =>
    cases h
    exact ⟨(BitVec.eq_of_toNat_eq hop).symm, rfl⟩

/-- A command is read from its own word only. -/
theorem encode_of_decode {cw : CommandWord} {i : Instr} (h : decode cw = .ok i) : encode i = cw := by
  unfold decode at h
  split at h
  · next hrsv =>
    obtain ⟨hop, harg⟩ := decodeOp_eq_ok h
    rw [encode, hop, harg, word_of_fields hrsv]
  · cases h

/-- A word decodes to a command exactly if it is the command's word, where the command's word does. -/
theorem decode_eq_ok_iff_of_encode {i : Instr} (h : decode (encode i) = .ok i) (cw : CommandWord) :
    decode cw = .ok i ↔ cw = encode i :=
  ⟨fun hcw => (encode_of_decode hcw).symm, fun hcw => hcw ▸ h⟩

/-- The operations 0 and 1 take no operand (40_intake.md R80, R81). -/
theorem Instr.arg_of_op_lt_two {i : Instr} (h : i.op.toNat < 2) : i.arg = 0 := by
  cases i with
  | nop => rfl
  | clr => rfl
  | _ => simp [Instr.op] at h

/-- Above the word of an operation without operand, up to the next operation, every word is illegal. -/
theorem decode_error_of_operand {cw : CommandWord} {op : Nat} (hop : op < 2) (hlo : 4096 * op < cw.toNat)
    (hhi : cw.toNat < 4096 * (op + 1)) : ∃ err, decode cw = .error err := by
  cases hd : decode cw with
  | error err => exact ⟨err, rfl⟩
  | ok i =>
    exfalso
    have hcw : cw.toNat = 4096 * i.op.toNat + i.arg.toNat := by
      rw [← encode_toNat, encode_of_decode hd]
    have harg : i.arg.toNat = 0 :=
      congrArg BitVec.toNat (Instr.arg_of_op_lt_two (i := i) (by omega))
    omega

end Sys2Proof

namespace Sys2Proof.Machine

/-! ### Reads that are refused -/

theorem exec_rdb_of_le {s : State} {i : Byte} (h : s.count ≤ i.toNat) :
    exec (.rdb i) s = .next (s.respond (.refuse .eIdx)) := if_neg (Nat.not_lt.2 h)

/-- Without an accepted reply there is no payload to read. -/
theorem exec_rdp_of_ne_ok {s : State} (h : s.status ≠ .stOk) (i : Byte) :
    exec (.rdp i) s = .next (s.respond (.refuse .eIdx)) := if_neg fun hc => h hc.1

/-! ### The count -/

/-- All that a command can do to `CNT`. -/
theorem exec_next_count {i : Instr} {s t : State} (h : exec i s = .next t) :
    t.count = s.count ∨ (i = .clr ∧ t.count = 0) ∨
      (s.count < 64 ∧ (∃ b, i = .push b) ∧ t.count = s.count + 1) := by
  cases i with
  | nop => cases h; exact .inl rfl
  | clr => cases h; exact .inr (.inl ⟨rfl, rfl⟩)
  | push b =>
    rcases exec_push_next h with ⟨hlt, rfl⟩ | ⟨-, rfl⟩
    · exact .inr (.inr ⟨hlt, ⟨b, rfl⟩, s.pushByte_count b hlt⟩)
    · exact .inl rfl
  | val e => obtain ⟨v, -, rfl⟩ := exec_val_next h; exact .inl rfl
  | rdp k => rcases exec_rdp_next h with ⟨-, -, b, -, rfl⟩ | ⟨-, rfl⟩ <;> exact .inl rfl
  | rdb k => rcases exec_rdb_next h with ⟨-, b, -, rfl⟩ | ⟨-, rfl⟩ <;> exact .inl rfl
  | rdr r => obtain ⟨a, -, rfl⟩ := exec_rdr_next h; exact .inl rfl

/-- No command but `CLR` lowers `CNT` (10_state.md R12). -/
theorem eq_clr_of_count_lt {i : Instr} {s t : State} (h : exec i s = .next t)
    (hlt : t.count < s.count) : i = .clr := by
  rcases exec_next_count h with hsame | ⟨hclr, -⟩ | ⟨-, -, hup⟩
  · omega
  · exact hclr
  · omega

/-! ### What a successful `PUSH` leaves (40_intake.md R82) -/

theorem State.pushByte_load (s : State) (b : Byte) (i : Nat) :
    (s.pushByte b).load i = if i = s.count then some b else s.load i :=
  s.buf.read_write s.count i b

/-- The byte pushed is folded into the checksum. -/
theorem State.pushByte_csum (s : State) (b : Byte) (hlt : s.count < 64) :
    (s.pushByte b).csum = s.csum.map (· ^^^ b) := by
  have hbelow : xor8 (s.pushByte b).load 0 s.count = xor8 s.load 0 s.count :=
    xor8_congr _ _ _ _ fun i _ hi => by rw [s.pushByte_load, if_neg (Nat.ne_of_lt hi)]
  have hlast : (s.pushByte b).load s.count = some b := by rw [s.pushByte_load, if_pos rfl]
  rw [State.csum, s.pushByte_count b hlt, xor8_succ _ _ _ (Nat.zero_le _), hbelow, hlast]
  cases h : xor8 s.load 0 s.count <;> simp [State.csum, h]

/-- The response is the new count, which fits the response's value. -/
theorem State.pushByte_rsp_eq_count (s : State) (b : Byte) (hlt : s.count < 64) :
    (s.pushByte b).rsp = some (BitVec.ofNat 16 (s.count + 1)) := by
  rw [State.pushByte_rsp, Answer.word_value]
  congr 1
  apply BitVec.eq_of_toNat_eq
  simp only [BitVec.toNat_setWidth, BitVec.toNat_ofNat]
  omega

/-! ### Well-formed replies -/

/-- A buffer with every field of a success reply to `e` passes all six checks (41_validate.md R92). -/
theorem decodeReply_of_fields {e l c : Byte} {B : Nat → Option Byte} (h0 : B 0 = some 0x6F)
    (h1 : B 1 = some 0x37) (h2 : B 2 = some l) (hl : 3 ≤ l.toNat) (h3 : B 3 = some 0x02)
    (h4 : B 4 = some 0x00) (h5 : B 5 = some e) (hsum : xor8 B 0 (l.toNat + 3) = some c)
    (hlast : B (l.toNat + 3) = some c) :
    decodeReply e B (l.toNat + 4) = some ⟨.stOk, 0x00, l.toNat - 3⟩ := by
  have hbody : decodeBody e B l.toNat = some ⟨.stOk, 0x00, l.toNat - 3⟩ := by
    simp [decodeBody, h3, h4, h5, hsum, hlast]
  simp [decodeReply, h0, h1, h2, hbody, Nat.not_lt.2 hl]

/-- The reply that `MakeReply` builds is accepted, with its data as the payload. -/
theorem decodeReply_makeReply {o : Byte} {P F : List Byte} (hle : P.length ≤ 252)
    (h : makeReply 0x00 o P = some F) :
    decodeReply o (bytesOf F) F.length = some ⟨.stOk, 0x00, P.length⟩ := by
  rw [makeReply_of_le hle] at h
  generalize hl : BitVec.ofNat 8 (3 + P.length) = l at h
  have hlen : l.toNat = 3 + P.length := by rw [← hl]; exact Nat.mod_eq_of_lt (by omega)
  generalize hfront : 0x6F :: 0x37 :: l :: 0x02 :: 0x00 :: o :: P = front at h
  have hfrontLen : front.length = l.toNat + 3 := by simp [← hfront]; omega
  obtain ⟨c, hc, rfl⟩ := (appendChecksum_eq_some_iff _ _).1 h
  have hsum : xor8 (bytesOf (front ++ [c])) 0 (l.toNat + 3) = some c := by
    rw [← hfrontLen, xor8_bytesOf_append, hc]
  have hlast : bytesOf (front ++ [c]) (l.toNat + 3) = some c :=
    hfrontLen ▸ List.getElem?_concat_length
  have hcount : (front ++ [c]).length = l.toNat + 4 := by simp [hfrontLen]
  have hpayload : P.length = l.toNat - 3 := by omega
  rw [hcount, hpayload]
  subst hfront
  exact decodeReply_of_fields rfl rfl rfl (by omega) rfl rfl rfl hsum hlast

/-! ### The obligations -/

/-- Settles O12: the word by the decoder, the illegal range by `decode_error_of_operand`, the effect by the
meaning of `NOP`. -/
theorem nopDoesNothing : Obligations.NopDoesNothing :=
  ⟨decode_eq_ok_iff_of_encode (i := .nop) rfl,
    fun _ hlo hhi => decode_error_of_operand (op := 0) (by decide) hlo (Nat.lt_succ_of_le hhi), exec_nop⟩

/-- Settles O13: the views see an empty buffer, and `exec_next_count` and `exec_next_ovf` leave `CLR` alone to
lower `CNT` or clear `OVF`. -/
theorem clearGivesResetState : Obligations.ClearGivesResetState := by
  obtain ⟨-, hovf, -, -⟩ := overflowIsSticky
  refine ⟨decode_eq_ok_iff_of_encode (i := .clr) rfl,
    fun _ hlo hhi => decode_error_of_operand (op := 1) (by decide) hlo (Nat.lt_succ_of_le hhi),
    fun s => ?_, fun i s t h => ⟨eq_clr_of_count_lt h, (hovf i s t h).2⟩⟩
  obtain ⟨hcsum, hlen, hflags⟩ :=
    exec_rdr_of_empty (t := s.clearBlock.respond (.value 0x00)) s.clearBlock_count rfl
  exact ⟨_, exec_clr s, rfl, exec_clr _, hcsum, hlen, hflags, fun i => exec_rdb_of_le (Nat.zero_le _)⟩

/-- Settles O14, field by field of the state a successful `PUSH` leaves; a sequence of pushes extends the empty
string held. -/
theorem pushAppendsByte : Obligations.PushAppendsByte := by
  refine ⟨fun cw b => decode_eq_ok_iff_of_encode (i := .push b) (decode_word 0x2 b) cw,
    fun s b hlt => ⟨_, exec_push_of_lt s b hlt, ?_, fun i hi => ?_, s.pushByte_count b hlt, rfl, rfl, rfl,
      rfl, rfl, s.pushByte_rsp_eq_count b hlt, s.pushByte_csum b hlt⟩, fun bs s hempty hfit => ?_⟩
  · rw [s.pushByte_load, if_pos rfl]
  · rw [s.pushByte_load, if_neg hi]
  · have hnil : s.Holds [] := ⟨hempty, fun _ hi => absurd hi (Nat.not_lt_zero _)⟩
    obtain ⟨t, hrun, hholds, -⟩ := foldInstrs_push hnil bs (by simpa using hfit)
    exact ⟨t, hrun, hholds⟩

/-- Settles O15: the effect is `pushFull`'s, `VAL` is carried out on any 64 bytes held, and it accepts the
reply with 57 data bytes. -/
theorem pushOnFullBufferSetsOverflow : Obligations.PushOnFullBufferSetsOverflow := by
  refine ⟨fun s b hfull => exec_push_of_le s b hfull.ge, fun i s t hne hon h => ?_,
    fun s e bs hholds hlen => ?_, fun s o P F hP hF hholds => ?_⟩
  · rcases exec_next_ovf h with hsame | ⟨hclr, -⟩ | ⟨-, -, hset⟩
    · exact hsame.trans hon
    · exact absurd hclr hne
    · exact hset
  · obtain ⟨t, -, hexec, -⟩ := hholds.exec_val hlen.le e
    exact ⟨t, hexec⟩
  · have hle : P.length ≤ 252 := by omega
    have hverdict := (hholds.decodeReply_eq o).trans (decodeReply_makeReply hle hF)
    obtain ⟨F', hF', -, -, ⟨l, hl, hlen⟩, -⟩ := replyFramesWellFormed 0x00 o P hle
    obtain rfl : F' = F := Option.some.inj (hF'.symm.trans hF)
    have hl60 : l = 60 := BitVec.eq_of_toNat_eq (by rw [hlen, hP]; rfl)
    exact ⟨hl60 ▸ hl, _, exec_val_of_verdict hverdict, rfl⟩

/-- Settles O16: a successful `PUSH` leaves no verdict, and the invariant of a reachable state says what a held
verdict is on. -/
theorem pushDiscardsVerdict : Obligations.PushDiscardsVerdict :=
  ⟨fun s b hlt => ⟨_, exec_push_of_lt s b hlt, rfl, rfl, rfl,
      fun i => exec_rdp_of_ne_ok (s := s.pushByte b) nofun i⟩,
    fun _ hreach => hreach.inv.judged⟩

/-- Settles O18: `CNT` alone decides between the two outcomes of `PUSH`, and neither writes a register from a
byte. -/
theorem intakeDoesNotValidate : Obligations.IntakeDoesNotValidate := by
  refine ⟨fun s s' t t' b b' hcnt hst hrc hpl hovf h h' => ?_, fun s t e bs hholds h => ?_,
    fun s t h => ?_⟩
  · have hcount : s'.count = s.count := congrArg BitVec.toNat hcnt
    rcases exec_push_next h with ⟨hlt, rfl⟩ | ⟨hfull, rfl⟩
    · rcases exec_push_next h' with ⟨-, rfl⟩ | ⟨hfull', -⟩
      · simp [hcount, hovf]
      · omega
    · rcases exec_push_next h' with ⟨hlt', -⟩ | ⟨-, rfl⟩
      · omega
      · simp [hcnt, hst, hrc, hpl]
  · obtain ⟨v, hv, rfl⟩ := exec_val_next h
    exact ⟨v, (hholds.decodeReply_eq e).symm.trans hv, rfl, rfl⟩
  · obtain ⟨a, rfl⟩ := exec_quiet_next rfl h
    exact s.sameBlock_respond a

end Sys2Proof.Machine
end

-- ==== the proofs of the statements of spec 41_validate.md ====
section
/-!
PROOFS. The statements of 41_validate.md: the laws of `Xor8`, the six checks of `DecodeReply` one by one, what
it does not read, and which byte strings it accepts: the well-formed success replies, and none that differs from
one of them in a single bit. The lemmas come first, in the order of the model's definitions; each obligation is
assembled from them at the end.
-/

namespace Sys2Proof.Machine

/-! ### A buffer with one byte replaced -/

/-- The buffer `B` with the byte `y` at index `i`. -/
def setByte (B : Nat → Option Byte) (i : Nat) (y : Byte) : Nat → Option Byte :=
  fun j => if j = i then some y else B j

@[simp] theorem setByte_same (B : Nat → Option Byte) (i : Nat) (y : Byte) : setByte B i y i = some y :=
  if_pos rfl

theorem setByte_other (B : Nat → Option Byte) {i j : Nat} (y : Byte) (h : j ≠ i) :
    setByte B i y j = B j := if_neg h

/-- Where a byte had a value it still has one. -/
theorem setByte_isSome {B : Nat → Option Byte} (i : Nat) {j : Nat} (y : Byte)
    (h : ∃ x, B j = some x) : ∃ x, setByte B i y j = some x := by
  by_cases hj : j = i
  · exact ⟨y, if_pos hj⟩
  · rwa [setByte_other B y hj]

/-- A byte string with one byte modified, as a buffer. -/
theorem bytesOf_modify {F : List Byte} {i : Nat} {x : Byte} (f : Byte → Byte) (hx : F[i]? = some x) :
    bytesOf (F.modify i f) = setByte (bytesOf F) i (f x) := by
  funext j
  by_cases hj : j = i
  · subst hj
    simp [bytesOf, hx]
  · simp [bytesOf, setByte_other _ _ hj, Ne.symm hj]

/-! ### The laws of `Xor8` (41_validate.md R91) -/

section xor

variable {B : Nat → Option Byte} {a b i : Nat} {x y z : Byte}

/-- A range that has a result is the range without its last byte, and that byte. -/
theorem xor8_succ_eq_some_iff (h : a ≤ b) :
    xor8 B a (b + 1) = some z ↔ ∃ x y, xor8 B a b = some x ∧ B b = some y ∧ x ^^^ y = z := by
  simp [xor8_succ B a b h, Option.bind_eq_some_iff]

theorem xor8_split {c : Nat} (hab : a ≤ b) (hbc : b ≤ c) (hx : xor8 B a b = some x)
    (hy : xor8 B b c = some y) : xor8 B a c = some (x ^^^ y) := by
  induction c, hbc using Nat.le_induction generalizing y with
  | base =>
    obtain rfl : 0x00 = y := by simpa using hy
    simpa using hx
  | succ c hbc ih =>
    obtain ⟨y', w, hy', hw, rfl⟩ := (xor8_succ_eq_some_iff hbc).1 hy
    exact (xor8_succ_eq_some_iff (hab.trans hbc)).2 ⟨_, w, ih hy', hw, BitVec.xor_assoc x y' w⟩

/-- The XOR of a byte string is the fold of its bytes. -/
theorem xor8_bytesOf (F : List Byte) :
    xor8 (bytesOf F) 0 F.length = some (F.foldl (· ^^^ ·) 0x00) := by
  induction F using List.reverseRecOn with
  | nil => rfl
  | append_singleton F c ih =>
    have hlast : bytesOf (F ++ [c]) F.length = some c := List.getElem?_concat_length
    rw [List.length_append, List.foldl_append]
    exact (xor8_succ_eq_some_iff (Nat.zero_le _)).2
      ⟨_, c, (xor8_bytesOf_append F [c]).trans ih, hlast, rfl⟩

theorem xor8_perm {F F' : List Byte} (h : F.Perm F') :
    xor8 (bytesOf F) 0 F.length = xor8 (bytesOf F') 0 F'.length := by
  rw [xor8_bytesOf, xor8_bytesOf, h.foldl_eq' fun x _ y _ z => by
    rw [BitVec.xor_assoc, BitVec.xor_comm x y, BitVec.xor_assoc]]

/-- Where one byte in range changes from `x` to `y`, the result changes by `x ^^^ y`. -/
theorem xor8_setByte (hai : a ≤ i) (hib : i < b) (hx : B i = some x) (hz : xor8 B a b = some z) :
    xor8 (setByte B i y) a b = some (z ^^^ (x ^^^ y)) := by
  induction b, hib using Nat.le_induction generalizing z with
  | base =>
    obtain ⟨u, w, hu, hw, rfl⟩ := (xor8_succ_eq_some_iff hai).1 hz
    obtain rfl : x = w := Option.some.inj (hx.symm.trans hw)
    have hbelow : xor8 (setByte B i y) a i = some u :=
      (xor8_congr _ _ _ _ fun j _ hj => setByte_other B y (Nat.ne_of_lt hj)).trans hu
    refine (xor8_succ_eq_some_iff hai).2 ⟨u, y, hbelow, setByte_same B i y, ?_⟩
    rw [BitVec.xor_assoc, xor_cancel_left]
  | succ b hib ih =>
    have hab : a ≤ b := by omega
    obtain ⟨u, w, hu, hw, rfl⟩ := (xor8_succ_eq_some_iff hab).1 hz
    have hlast : setByte B i y b = some w := (setByte_other B y (by omega)).trans hw
    refine (xor8_succ_eq_some_iff hab).2 ⟨_, w, ih hu, hlast, ?_⟩
    rw [BitVec.xor_assoc, BitVec.xor_comm _ w, BitVec.xor_assoc]

/-- Equal changes of two bytes in range cancel. -/
theorem xor8_setByte_setByte {j : Nat} {f : Byte} (hai : a ≤ i) (hib : i < b) (haj : a ≤ j)
    (hjb : j < b) (hij : i ≠ j) (hx : B i = some x) (hy : B j = some y) (hz : xor8 B a b = some z) :
    xor8 (setByte (setByte B j (y ^^^ f)) i (x ^^^ f)) a b = some z := by
  have hx' : setByte B j (y ^^^ f) i = some x := (setByte_other B _ hij).trans hx
  rw [xor8_setByte hai hib hx' (xor8_setByte haj hjb hy hz), xor_cancel_left, xor_cancel_left,
    xor_cancel_right]

/-- The last byte is the XOR of those before it exactly if the XOR of all is zero. -/
theorem xor8_eq_last_iff {n : Nat} (hz : xor8 B 0 (n + 1) = some z) :
    xor8 B 0 n = B n ↔ z = 0x00 := by
  obtain ⟨x, y, hx, hy, rfl⟩ := (xor8_succ_eq_some_iff (Nat.zero_le n)).1 hz
  rw [hx, hy, Option.some_inj]
  exact BitVec.xor_eq_zero_iff.symm

/-- Where the XOR of a frame is zero, a change `d` of one byte makes it `d`. -/
theorem xor8_setByte_of_zero {d : Byte} (hib : i < b) (hx : B i = some x)
    (hz : xor8 B 0 b = some 0x00) : xor8 (setByte B i (x ^^^ d)) 0 b = some d := by
  rw [xor8_setByte (Nat.zero_le i) hib hx hz, xor_cancel_left]
  exact congrArg some BitVec.zero_xor

end xor

/-! ### The outcome of each check (41_validate.md R93 to R103) -/

section checks

variable {e l m rc o x c : Byte} {B : Nat → Option Byte} {n : Nat}

/-- Check 1 fails. -/
theorem decodeReply_header (hB : ∀ i, i < n → ∃ x, B i = some x)
    (hbad : n < 2 ∨ B 0 ≠ some 0x6F ∨ B 1 ≠ some 0x37) :
    decodeReply e B n = some (.error .stHeader) := by
  obtain ⟨v, hv⟩ := decodeReply_isSome e B n hB
  rcases decodeReply_cases hv with ⟨rfl, -⟩ | ⟨hn, h0, h1, -⟩
  · exact hv
  · rcases hbad with hlt | h0' | h1'
    · omega
    · exact absurd h0 h0'
    · exact absurd h1 h1'

/-- Check 2 fails: there is no length byte. -/
theorem decodeReply_no_length (h0 : B 0 = some 0x6F) (h1 : B 1 = some 0x37) :
    decodeReply e B 2 = some (.error .stLength) := by
  simp [decodeReply, h0, h1]

/-- Check 2 fails: the declared length does not match the number of bytes, or is below 3. -/
theorem decodeReply_bad_length (hn : 3 ≤ n) (h0 : B 0 = some 0x6F) (h1 : B 1 = some 0x37)
    (h2 : B 2 = some l) (hbad : l.toNat + 4 ≠ n ∨ l.toNat < 3) :
    decodeReply e B n = some (.error .stLength) := by
  have hn2 : ¬n < 2 := by omega
  have hn3 : ¬n < 3 := by omega
  by_cases hl : l.toNat + 4 = n
  · have hl3 : l.toNat < 3 := hbad.resolve_left (not_not.2 hl)
    simp [decodeReply, hn2, hn3, h0, h1, h2, hl, hl3]
  · simp [decodeReply, hn2, hn3, h0, h1, h2, hl]

/-- Checks 1 and 2 pass: the body is judged. -/
theorem decodeReply_eq_body (h0 : B 0 = some 0x6F) (h1 : B 1 = some 0x37) (h2 : B 2 = some l)
    (hl : l.toNat + 4 = n) (hl3 : 3 ≤ l.toNat) : decodeReply e B n = decodeBody e B l.toNat := by
  subst hl
  simp [decodeReply, h0, h1, h2, Nat.not_lt.2 hl3]

/-- Check 3 fails. -/
theorem decodeBody_format {l : Nat} (h3 : B 3 = some m) (hm : m ≠ 0x02#8) :
    decodeBody e B l = some (.error .stFormat) := by
  simp [decodeBody, h3, hm]

/-- Check 4 fails. -/
theorem decodeBody_result {l : Nat} (h3 : B 3 = some 0x02) (h4 : B 4 = some rc) (hrc : rc ≠ 0x00#8) :
    decodeBody e B l = some ⟨.stResult, rc, 0⟩ := by
  simp [decodeBody, h3, h4, hrc]

/-- Check 5 fails. -/
theorem decodeBody_command {l : Nat} (h3 : B 3 = some 0x02) (h4 : B 4 = some 0x00)
    (h5 : B 5 = some o) (ho : o ≠ e) : decodeBody e B l = some (.error .stCommand) := by
  simp [decodeBody, h3, h4, h5, ho]

/-- Check 6 fails. -/
theorem decodeBody_checksum {l : Nat} (h3 : B 3 = some 0x02) (h4 : B 4 = some 0x00)
    (h5 : B 5 = some e) (hsum : xor8 B 0 (l + 3) = some x) (hlast : B (l + 3) = some c)
    (hne : x ≠ c) : decodeBody e B l = some (.error .stChecksum) := by
  simp [decodeBody, h3, h4, h5, hsum, hlast, hne]

/-- Check 6 fails where the XOR of the whole frame, the checksum byte included, is not zero. -/
theorem decodeBody_checksum_of_xor {l : Nat} (h3 : B 3 = some 0x02) (h4 : B 4 = some 0x00)
    (h5 : B 5 = some e) (hall : xor8 B 0 (l + 4) = some x) (hne : x ≠ 0x00) :
    decodeBody e B l = some (.error .stChecksum) := by
  obtain ⟨sum, c, hsum, hlast, rfl⟩ := (xor8_succ_eq_some_iff (Nat.zero_le (l + 3))).1 hall
  exact decodeBody_checksum h3 h4 h5 hsum hlast fun heq => hne (BitVec.xor_eq_zero_iff.2 heq)

end checks

/-! ### What `DecodeReply` does not read (41_validate.md R105) -/

/-- `DecodeReply` reads the header and the length byte itself, and all else through checks 3 to 6. -/
theorem decodeReply_eq_of_body {e e' : Byte} {B B' : Nat → Option Byte} {n : Nat}
    (hfront : ∀ i, i < n → i < 3 → B i = B' i)
    (hbody : ∀ l : Byte, B 0 = some 0x6F → B 1 = some 0x37 → B 2 = some l → l.toNat + 4 = n →
      3 ≤ l.toNat → decodeBody e B l.toNat = decodeBody e' B' l.toNat) :
    decodeReply e B n = decodeReply e' B' n := by
  unfold decodeReply
  by_cases hn : n < 2
  · simp [hn]
  rw [if_neg hn, if_neg hn, ← hfront 0 (by omega) (by omega), ← hfront 1 (by omega) (by omega)]
  refine Option.bind_congr fun b0 h0 => ?_
  split
  · rfl
  refine Option.bind_congr fun b1 h1 => ?_
  split
  · rfl
  split
  · rfl
  rw [← hfront 2 (by omega) (by omega)]
  refine Option.bind_congr fun l h2 => ?_
  split
  · rfl
  split
  · rfl
  next e0 e1 _ hl hl3 =>
    obtain rfl := not_not.1 e0
    obtain rfl := not_not.1 e1
    exact hbody l h0 h1 h2 (not_not.1 hl) (Nat.not_lt.1 hl3)

/-- Checks 3 to 6 see the data bytes only through the XOR. -/
theorem decodeBody_congr_of_xor (e : Byte) {B B' : Nat → Option Byte} {l : Nat} (h3 : B 3 = B' 3)
    (h4 : B 4 = B' 4) (h5 : B 5 = B' 5) (hsum : xor8 B 0 (l + 3) = xor8 B' 0 (l + 3))
    (hlast : B (l + 3) = B' (l + 3)) : decodeBody e B l = decodeBody e B' l := by
  unfold decodeBody
  rw [h3, h4, h5, hsum, hlast]

/-- Checks 3 to 6 see the expected opcode only through check 5. -/
theorem decodeBody_congr_opcode {e e' : Byte} {B : Nat → Option Byte} (l : Nat)
    (h : B 5 = some e ↔ B 5 = some e') : decodeBody e B l = decodeBody e' B l := by
  unfold decodeBody
  cases h5 : B 5 with
  | none => rfl
  | some o =>
    have ho : o = e ↔ o = e' := by simpa [h5] using h
    simp only [Option.bind_eq_bind, Option.bind_some, ne_eq, ho]

/-- The verdicts of checks 1 to 4 are the same for every expected opcode. -/
theorem decodeReply_early {e : Byte} {B : Nat → Option Byte} {n : Nat} {v : Verdict}
    (h : decodeReply e B n = some v)
    (hst : v.status = .stHeader ∨ v.status = .stLength ∨ v.status = .stFormat ∨
      v.status = .stResult) (e2 : Byte) : decodeReply e2 B n = some v := by
  rw [← h]
  refine decodeReply_eq_of_body (fun _ _ _ => rfl) fun l h0 h1 h2 hl hl3 => ?_
  rw [decodeReply_eq_body h0 h1 h2 hl hl3] at h
  obtain ⟨hhdr, hlen⟩ := decodeBody_status h
  obtain ⟨m, h3, ⟨hm, rfl⟩ | ⟨rfl, rc, h4, ⟨hrc, rfl⟩ | ⟨-, o, -, hlate⟩⟩⟩ := decodeBody_cases h
  · rw [h, decodeBody_format h3 hm]
  · rw [h, decodeBody_result h3 h4 hrc]
  · exfalso
    rcases hlate with ⟨-, rfl⟩ | ⟨-, x, c, -, -, ⟨-, rfl⟩ | ⟨-, rfl⟩⟩ <;> simp at hst

/-! ### What `VAL`, `RDR CSUM` and `RDP` do -/

/-- `VAL` writes the verdict and answers its status, and writes nothing else (41_validate.md R106). -/
theorem exec_val_writes {s : State} {e : Byte} {v : Verdict}
    (h : decodeReply e s.load s.count = some v) :
    exec (.val e) s =
      .next { s with status := v.status, rcode := v.rcode, plen := BitVec.ofNat 6 v.plen,
                     rsp := some (v.status.code.setWidth 16) } := by
  rw [exec_val_of_verdict h, ← Status.value_word]
  rfl

/-- `VAL` on a byte string held. -/
theorem State.Holds.exec_val_writes {s : State} {bs : List Byte} (h : s.Holds bs) {e : Byte}
    {v : Verdict} (hv : decodeReply e (bytesOf bs) bs.length = some v) :
    exec (.val e) s =
      .next { s with status := v.status, rcode := v.rcode, plen := BitVec.ofNat 6 v.plen,
                     rsp := some (v.status.code.setWidth 16) } :=
  Machine.exec_val_writes ((h.decodeReply_eq e).trans hv)

/-- `VAL` does not see an earlier verdict (41_validate.md R105). -/
theorem exec_val_writeVerdict (e : Byte) (s : State) (v : Verdict) :
    exec (.val e) (s.writeVerdict v) = exec (.val e) s := by
  show execVal e _ = execVal e _
  simp only [execVal, State.writeVerdict_load, State.writeVerdict_count]
  cases decodeReply e s.load s.count <;> rfl

theorem exec_rdr_csum {s : State} {x : Byte} (h : s.csum = some x) :
    exec (.rdr .csum) s = .next (s.respond (.value x)) := by
  have hread : s.readReg .csum = some (.value x) := by simp [State.readReg, h]
  exact State.answer_next.2 ⟨_, hread, rfl⟩

/-- The host reads `CSUM` as 0x00 exactly if the XOR of the bytes held is zero (41_validate.md R102). -/
theorem exec_rdr_csum_eq_zero_iff {s : State} {x : Byte} (h : s.csum = some x) :
    exec (.rdr .csum) s = .next { s with rsp := some 0x0000 } ↔ x = 0x00 := by
  rw [exec_rdr_csum h]
  constructor
  · intro heq
    have hrsp : x.setWidth 16 = 0x0000 :=
      Option.some.inj (congrArg State.rsp (Host.Outcome.next.inj heq))
    have hnat := congrArg BitVec.toNat hrsp
    rw [BitVec.toNat_setWidth_of_le (by decide)] at hnat
    exact BitVec.eq_of_toNat_eq hnat
  · rintro rfl
    rfl

/-- `RDP` below the payload length reads the byte at its index from 6 on (42_readout.md R120). -/
theorem exec_rdp_of_lt {s : State} {i b : Byte} (hst : s.status = .stOk)
    (hi : i.toNat < s.payloadLen) (hb : s.load (6 + i.toNat) = some b) :
    exec (.rdp i) s = .next (s.respond (.value b)) := by
  show execRdp i s = _
  simp [execRdp, payloadIndex, hst, hi, hb]

/-- Under the invariant every byte below `CNT` holds a value. -/
theorem State.Inv.load_isSome {s : State} (h : s.Inv) {i : Nat} (hi : i < s.count) :
    ∃ x, s.load i = some x := by
  apply Option.isSome_iff_exists.1
  rw [State.load, Memory.read_isSome, h.filled]
  exact List.mem_range.2 hi

theorem Status.code_pos {st : Status} (h : st ≠ .stNone) : 1 ≤ st.code.toNat := by
  cases st with
  | stNone => exact absurd rfl h
  | _ => decide

/-! ### The accepted byte strings (41_validate.md R111, R112) -/

/-- The bytes of a success reply to `e` of declared length `l` with the checksum byte `c` (30_encoding.md
R59); `decodeReply_ok_iff` says that `DecodeReply` accepts these buffers and no others. -/
structure IsSuccessReply (e l c : Byte) (B : Nat → Option Byte) : Prop where
  header0 : B 0 = some 0x6F
  header1 : B 1 = some 0x37
  length : B 2 = some l
  fixed : 3 ≤ l.toNat
  marker : B 3 = some 0x02
  result : B 4 = some 0x00
  opcode : B 5 = some e
  sum : xor8 B 0 (l.toNat + 3) = some c
  last : B (l.toNat + 3) = some c

theorem decodeReply_ok_iff {e : Byte} {B : Nat → Option Byte} {n p : Nat} :
    decodeReply e B n = some ⟨.stOk, 0x00, p⟩ ↔
      ∃ l c, IsSuccessReply e l c B ∧ l.toNat + 4 = n ∧ l.toNat = 3 + p := by
  constructor
  · intro h
    rcases decodeReply_cases h with ⟨hv, -⟩ | ⟨-, h0, h1, ⟨hv, -⟩ | ⟨l, h2, hl, hl3, hbody⟩⟩
    · cases hv
    · cases hv
    obtain ⟨m, h3, ⟨-, hv⟩ | ⟨rfl, rc, h4, ⟨-, hv⟩ | ⟨rfl, o, h5, ⟨-, hv⟩ |
      ⟨rfl, x, c, hx, hc, ⟨-, hv⟩ | ⟨rfl, hv⟩⟩⟩⟩⟩ := decodeBody_cases hbody
    · cases hv
    · cases hv
    · cases hv
    · cases hv
    · obtain rfl : p = l.toNat - 3 := congrArg Verdict.plen hv
      exact ⟨l, x, ⟨h0, h1, h2, hl3, h3, h4, h5, hx, hc⟩, hl, by omega⟩
  · rintro ⟨l, c, h, rfl, hp⟩
    obtain rfl : l.toNat - 3 = p := by omega
    exact decodeReply_of_fields h.header0 h.header1 h.length h.fixed h.marker h.result h.opcode
      h.sum h.last

/-- The data bytes of a reply stand from index 6 on. -/
theorem makeReply_payload {rc o : Byte} {P F : List Byte} (hle : P.length ≤ 252)
    (h : makeReply rc o P = some F) : (F.drop 6).take P.length = P := by
  rw [makeReply_of_le hle] at h
  obtain ⟨c, -, rfl⟩ := (appendChecksum_eq_some_iff _ _).1 h
  exact List.take_left

/-- The byte at an index, and those after it. -/
theorem drop_eq_cons_of_getElem? {F : List Byte} {i : Nat} {b : Byte} (h : F[i]? = some b) :
    F.drop i = b :: F.drop (i + 1) := by
  rw [List.drop_eq_getElem?_toList_append, h]
  rfl

/-- An accepted byte string, written out as its fields. -/
theorem IsSuccessReply.bytes_eq {e l c : Byte} {bs : List Byte} {p : Nat}
    (h : IsSuccessReply e l c (bytesOf bs)) (hlen : l.toNat + 4 = bs.length) (hp : l.toNat = 3 + p) :
    bs = (0x6F :: 0x37 :: l :: 0x02 :: 0x00 :: e :: (bs.drop 6).take p) ++ [c] := by
  have hlast : bs[6 + p]? = some c := by
    rw [show 6 + p = l.toNat + 3 by omega]
    exact h.last
  have hend : bs.drop (6 + p) = [c] := by
    rw [drop_eq_cons_of_getElem? hlast, List.drop_eq_nil_of_le (by omega)]
  calc bs
    _ = bs.drop 0 := List.drop_zero.symm
    _ = 0x6F :: 0x37 :: l :: 0x02 :: 0x00 :: e :: bs.drop 6 := by
        rw [drop_eq_cons_of_getElem? h.header0, drop_eq_cons_of_getElem? h.header1,
          drop_eq_cons_of_getElem? h.length, drop_eq_cons_of_getElem? h.marker,
          drop_eq_cons_of_getElem? h.result, drop_eq_cons_of_getElem? h.opcode]
    _ = 0x6F :: 0x37 :: l :: 0x02 :: 0x00 :: e :: ((bs.drop 6).take p ++ (bs.drop 6).drop p) := by
        rw [List.take_append_drop]
    _ = (0x6F :: 0x37 :: l :: 0x02 :: 0x00 :: e :: (bs.drop 6).take p) ++ [c] := by
        rw [List.drop_drop, hend]
        rfl

/-- An accepted byte string is the reply built from its opcode and its data bytes. -/
theorem IsSuccessReply.makeReply_eq {e l c : Byte} {bs : List Byte} {p : Nat}
    (h : IsSuccessReply e l c (bytesOf bs)) (hlen : l.toNat + 4 = bs.length) (hp : l.toNat = 3 + p) :
    makeReply 0x00 e ((bs.drop 6).take p) = some bs := by
  have hdata : ((bs.drop 6).take p).length = p := by simp; omega
  have hl : BitVec.ofNat 8 (3 + p) = l := by
    rw [← hp, BitVec.ofNat_toNat, BitVec.setWidth_eq]
  have hbytes := h.bytes_eq hlen hp
  rw [makeReply_of_le (by omega), hdata, hl, appendChecksum_eq_some_iff]
  generalize hfront : 0x6F :: 0x37 :: l :: 0x02 :: 0x00 :: e :: (bs.drop 6).take p = front at *
  refine ⟨c, ?_, hbytes⟩
  have hfrontLen : front.length = l.toNat + 3 := by simp [← hfront, hdata]; omega
  rw [← xor8_bytesOf_append front [c], ← hbytes, hfrontLen]
  exact h.sum

/-! ### One changed byte (41_validate.md R110) -/

theorem twoPow_ne_zero {k : Nat} (hk : k < 8) : BitVec.twoPow 8 k ≠ 0 := fun h => by
  have hbit : (BitVec.twoPow 8 k).getLsbD k = true := by simp [hk]
  simp [h] at hbit

/-- The verdict on a success reply one of whose bytes was changed by `d`, by the index of that byte: that of
the check of its field. A changed data or checksum byte makes the XOR of the whole frame `d`, which fails
check 6. -/
theorem IsSuccessReply.decodeReply_setByte {e l c x d : Byte} {B : Nat → Option Byte} {i : Nat}
    (h : IsSuccessReply e l c B) (hB : ∀ j, j < l.toNat + 4 → ∃ y, B j = some y) (hd : d ≠ 0)
    (hi : i < l.toNat + 4) (hx : B i = some x) :
    decodeReply e (setByte B i (x ^^^ d)) (l.toNat + 4) =
      some
        (if i = 0 ∨ i = 1 then .error .stHeader
        else if i = 2 then .error .stLength
        else if i = 3 then .error .stFormat
        else if i = 4 then ⟨.stResult, d, 0⟩
        else if i = 5 then .error .stCommand
        else .error .stChecksum) := by
  have hxd : x ^^^ d ≠ x := mt xor_left_eq_self_iff.1 hd
  have hother {j : Nat} {y : Byte} (hy : B j = some y) (hj : j ≠ i) :
      setByte B i (x ^^^ d) j = some y := (setByte_other B _ hj).trans hy
  by_cases hhdr : i = 0 ∨ i = 1
  · have hchanged : setByte B i (x ^^^ d) i ≠ B i := by
      rw [setByte_same, hx]
      exact fun heq => hxd (Option.some.inj heq)
    rw [if_pos hhdr]
    refine decodeReply_header (fun j hj => setByte_isSome i _ (hB j hj)) (.inr ?_)
    rcases hhdr with rfl | rfl
    · exact .inl (h.header0 ▸ hchanged)
    · exact .inr (h.header1 ▸ hchanged)
  have h0 := hother h.header0 (by omega)
  have h1 := hother h.header1 (by omega)
  rw [if_neg hhdr]
  by_cases h2 : i = 2
  · subst h2
    obtain rfl : x = l := Option.some.inj (hx.symm.trans h.length)
    have hl : (x ^^^ d).toNat + 4 ≠ x.toNat + 4 := fun heq =>
      hxd (BitVec.eq_of_toNat_eq (by omega))
    exact decodeReply_bad_length (by omega) h0 h1 (setByte_same B 2 _) (.inl hl)
  rw [if_neg h2, decodeReply_eq_body h0 h1 (hother h.length (Ne.symm h2)) rfl h.fixed]
  by_cases h3 : i = 3
  · subst h3
    obtain rfl : x = 0x02 := Option.some.inj (hx.symm.trans h.marker)
    exact decodeBody_format (setByte_same B 3 _) hxd
  have hm := hother h.marker (Ne.symm h3)
  rw [if_neg h3]
  by_cases h4 : i = 4
  · subst h4
    obtain rfl : x = 0x00 := Option.some.inj (hx.symm.trans h.result)
    exact decodeBody_result hm (by rw [setByte_same]; exact congrArg some BitVec.zero_xor) hd
  have hrc := hother h.result (Ne.symm h4)
  rw [if_neg h4]
  by_cases h5 : i = 5
  · subst h5
    obtain rfl : x = e := Option.some.inj (hx.symm.trans h.opcode)
    exact decodeBody_command hm hrc (setByte_same B 5 _) hxd
  have hall : xor8 B 0 (l.toNat + 4) = some 0x00 := xor8_succ_eq_zero h.sum h.last
  rw [if_neg h5]
  exact decodeBody_checksum_of_xor hm hrc (hother h.opcode (Ne.symm h5)) (xor8_setByte_of_zero hi hx hall) hd

/-! ### The obligations -/

/-- Settles O20: check 1 on the bytes held. -/
theorem valHeaderError : Obligations.ValHeaderError := fun _ _ bs hbs hbad =>
  hbs.exec_val_writes (decodeReply_header (bytesOf_isSome bs) hbad)

/-- Settles O21: check 2 on the bytes held, without a length byte and with a bad one. -/
theorem valLengthError : Obligations.ValLengthError := by
  intro s e bs hbs h0 h1 hbad
  rcases hbad with hn | ⟨l, h2, hl⟩
  · exact hbs.exec_val_writes (hn ▸ decodeReply_no_length h0 h1)
  · obtain ⟨hn, -⟩ := List.getElem?_eq_some_iff.1 h2
    exact hbs.exec_val_writes (decodeReply_bad_length hn h0 h1 h2 hl)

/-- Settles O22: once checks 1 and 2 have passed the verdict is that of the body, check by check. -/
theorem valBodyErrors : Obligations.ValBodyErrors := by
  intro s e l m rc o bs hbs h0 h1 h2 hl hl3 h3 h4 h5
  have hverdict := decodeReply_eq_body (e := e) (B := bytesOf bs) h0 h1 h2 hl hl3
  refine ⟨fun hm => ?_, fun hm hrc => ?_, fun hm hrc ho => ?_⟩
  · exact hbs.exec_val_writes (hverdict.trans (decodeBody_format h3 hm))
  · subst hm
    exact hbs.exec_val_writes (hverdict.trans (decodeBody_result h3 h4 hrc))
  · subst hm hrc
    exact hbs.exec_val_writes (hverdict.trans (decodeBody_command h3 h4 h5 ho))

/-- Settles O23: check 6 compares the XOR with the trailing byte, and the payload length of a reply of at most
64 bytes fits `PLEN`, so `RDP` reads every data byte. -/
theorem valChecksumAndSuccess : Obligations.ValChecksumAndSuccess := by
  intro s e l bs hbs hfit h0 h1 h2 hl hl3 h3 h4 h5
  obtain ⟨x, hx⟩ := xor8_isSome (bytesOf bs) 0 (l.toNat + 3) fun i _ hi =>
    bytesOf_isSome bs i (by omega)
  obtain ⟨c, hc⟩ := bytesOf_isSome bs (l.toNat + 3) (by omega)
  have hc' : bs[l.toNat + 3]? = some c := hc
  rw [hx, hc', ne_eq, Option.some_inj]
  refine ⟨fun hne => ?_, fun heq => ?_⟩
  · exact hbs.exec_val_writes ((decodeReply_eq_body h0 h1 h2 hl hl3).trans
      (decodeBody_checksum h3 h4 h5 hx hc hne))
  · subst heq
    have hexec := hbs.exec_val_writes (hl ▸ decodeReply_of_fields h0 h1 h2 hl3 h3 h4 h5 hx hc)
    have hplen : (l.toNat - 3) % 2 ^ 6 = l.toNat - 3 := Nat.mod_eq_of_lt (by omega)
    refine ⟨_, hexec, hbs, rfl, hplen, fun k hk => ?_⟩
    obtain ⟨b, hb⟩ := bytesOf_isSome bs (6 + k) (by omega)
    obtain ⟨hcount, hload⟩ := hbs
    have hk' : (BitVec.ofNat 8 k).toNat = k := Nat.mod_eq_of_lt (by omega)
    refine ⟨b, hb, exec_rdp_of_lt rfl ?_ ?_⟩
    · rw [hk']
      exact hk.trans_eq hplen.symm
    · rw [hk']
      exact (hload (6 + k) (by omega)).trans hb

/-- Settles O24, by the law that the last byte is the XOR of the others exactly if the whole XOR is zero. A
frame with the opcode 0x31 and XOR zero does not validate against 0x30. -/
theorem wholeFrameXorDecidesChecksum : Obligations.WholeFrameXorDecidesChecksum := by
  refine ⟨fun s l bs hbs h0 h1 h2 hl hl3 => ?_,
    0x30, [0x6F, 0x37, 0x04, 0x02, 0x00, 0x31, 0x32, 0x5D], .error .stCommand, by decide⟩
  obtain ⟨z, hz⟩ := xor8_bytesOf_isSome bs
  rw [exec_rdr_csum_eq_zero_iff (hbs.csum_eq.trans hz), hz, Option.some_inj]
  exact ⟨xor8_eq_last_iff (hl ▸ hz), Iff.rfl⟩

/-- Settles O25: under the invariant `DecodeReply` has a verdict, whose payload length fits `PLEN`. -/
theorem valWritesVerdict : Obligations.ValWritesVerdict := by
  refine ⟨fun cw e => decode_eq_ok_iff_of_encode (i := .val e) (decode_word 0x3 e) cw,
    fun s e hinv => ?_, fun s e hempty => ?_, fun s t e hfull h hst => ?_⟩
  · obtain ⟨v, hv⟩ := decodeReply_isSome e s.load s.count fun i hi => hinv.load_isSome hi
    have hexec := exec_val_writes hv
    exact ⟨v, _, hv, hexec, rfl, State.writeVerdict_payloadLen hinv.count_le hv,
      Status.code_pos (decodeReply_ne_none hv), v.status.code_le, fun o => (exec_val_ovf hexec o).2⟩
  · exact exec_val_writes (decodeReply_header (by simp [hempty]) (.inl (by omega)))
  · obtain ⟨v, hv, rfl⟩ := exec_val_next h
    obtain ⟨⟨l, h2, hl⟩, -⟩ := decodeReply_accepted hv hst
    have hl60 : l = 60 := BitVec.eq_of_toNat_eq (show l.toNat = 60 by omega)
    exact hl60 ▸ h2

/-- Settles O28: what checks 1 and 2 read, and what checks 3 to 6 read, below `n`. -/
theorem decodeReplyReadsOnlyItsInputs : Obligations.DecodeReplyReadsOnlyItsInputs := by
  refine ⟨fun e B B' n h => decodeReply_congr e h, fun e l B B' n h2 h hsum => ?_,
    fun e e' B n h => ?_, fun s s' t e hbuf hcnt h => ?_⟩
  · refine decodeReply_eq_of_body (fun i hi h3 => h i hi (by omega)) fun l' _ _ h2' hl hl3 => ?_
    obtain rfl : l = l' := Option.some.inj (h2.symm.trans h2')
    exact decodeBody_congr_of_xor e (h 3 (by omega) (by omega)) (h 4 (by omega) (by omega))
      (h 5 (by omega) (by omega)) hsum (h _ (by omega) (by omega))
  · exact decodeReply_eq_of_body (fun _ _ _ => rfl) fun l _ _ _ _ _ => decodeBody_congr_opcode l.toNat h
  · obtain ⟨v, hv, rfl⟩ := exec_val_next h
    have hv' : decodeReply e s'.load s'.count = some v := by
      unfold State.load State.count at hv ⊢
      rwa [← hbuf, ← hcnt]
    exact ⟨_, exec_val_of_verdict hv', rfl, rfl, rfl, rfl⟩

/-- Settles O29: `VAL` writes no element that a verdict depends on, and checks 1 to 4 do not see the opcode. -/
theorem valIsRepeatable : Obligations.ValIsRepeatable := by
  intro s t e h
  have hidem := exec_val_idempotent h
  obtain ⟨v, hv, rfl⟩ := exec_val_next h
  refine ⟨rfl, rfl, rfl, hidem, fun e2 => ⟨?_, fun hst => ?_⟩⟩
  · rw [exec_respond, exec_val_writeVerdict]
  · rw [exec_respond, exec_val_writeVerdict, exec_val_of_verdict (decodeReply_early hv hst e2)]

/-- Settles O30, law by law. -/
theorem xorLaws : Obligations.XorLaws :=
  ⟨fun x y z => ⟨(BitVec.xor_assoc x y z).symm, BitVec.xor_comm x y, BitVec.xor_zero, BitVec.xor_self⟩,
    fun _ _ _ _ _ _ => xor8_split, fun _ _ => xor8_perm,
    fun _ _ _ _ _ _ _ => xor8_setByte, fun _ _ _ => xor8_eq_last_iff,
    fun _ _ _ _ _ _ _ _ _ => xor8_setByte_setByte⟩

/-- Settles O31: a built reply is accepted, so it has the fields of a success reply, and a flipped bit is a
nonzero change of one byte. -/
theorem singleBitFlipDetected : Obligations.SingleBitFlipDetected := by
  intro o P F i k hP hF hi hk
  obtain ⟨l, c, hreply, hlen, -⟩ := decodeReply_ok_iff.1 (decodeReply_makeReply (by omega) hF)
  obtain ⟨x, hx⟩ := bytesOf_isSome F i hi
  rw [bytesOf_modify _ hx, ← hlen]
  rw [← hlen] at hi
  exact hreply.decodeReply_setByte (fun j hj => bytesOf_isSome F j (hlen ▸ hj)) (twoPow_ne_zero hk) hi
    hx

/-- Settles O32: the reply `MakeReply` builds is accepted, and its data stand from index 6 on. -/
theorem wellFormedRepliesDecode : Obligations.WellFormedRepliesDecode := by
  intro o P hP
  have hle : P.length ≤ 252 := by omega
  obtain ⟨F, hF, hlen, -⟩ := replyFramesWellFormed 0x00 o P hle
  exact ⟨F, hF, hlen ▸ decodeReply_makeReply hle hF, makeReply_payload hle hF⟩

/-- Settles O33: an accepted string has the fields of a success reply, which are those `MakeReply` writes. -/
theorem acceptsOnlyWellFormedReplies : Obligations.AcceptsOnlyWellFormedReplies := by
  intro e bs p hfit
  constructor
  · intro h
    obtain ⟨l, c, hreply, hlen, hp⟩ := decodeReply_ok_iff.1 h
    exact ⟨hreply.makeReply_eq hlen hp, by omega⟩
  · rintro ⟨h, hlen⟩
    have hdata : ((bs.drop 6).take p).length = p := by simp; omega
    have hv := decodeReply_makeReply (by omega) h
    rwa [hdata] at hv

end Sys2Proof.Machine
end

-- ==== the proofs of the statements of spec 42_readout.md ====
section
/-!
PROOFS. The statements of 42_readout.md: what `RDP`, `RDB` and `RDR` answer, and where each is refused. The
lemmas come first, in the order of the model's definitions; each obligation is assembled from them at the end.
-/

namespace Sys2Proof

/-! ### The words of `RDR` (30_encoding.md R65) -/

/-- The mask of a command with an operand clears the argument. -/
theorem arg_and_mask (arg : Byte) : (arg.setWidth 16 : CommandWord) &&& 0xFF00 = 0 := by
  have hmask : (0xFF00 : CommandWord) = (BitVec.allOnes 8).setWidth 16 <<< 8 := by decide
  rw [hmask]
  ext k hk
  by_cases hk8 : k < 8
  · simp [hk8, -BitVec.reduceAllOnes]
  · simp [BitVec.getLsbD_of_ge arg k (Nat.not_lt.1 hk8)]

/-- The match and mask columns of `RDR` say its operation and that the bits below it are clear. -/
theorem and_mask_eq_rdr_iff (cw : CommandWord) :
    cw &&& 0xFF00 = 0x6000 ↔ opField cw = 6 ∧ rsvField cw = 0 := by
  constructor
  · intro h
    have hop : opField (cw &&& 0xFF00) = opField cw := by
      rw [opField, BitVec.extractLsb'_and]
      exact BitVec.and_allOnes
    have hrsv : rsvField (cw &&& 0xFF00) = rsvField cw := by
      rw [rsvField, BitVec.extractLsb'_and]
      exact BitVec.and_allOnes
    rw [← hop, ← hrsv, h]
    decide
  · rintro ⟨hop, hrsv⟩
    rw [← word_of_fields hrsv, hop, BitVec.and_or_distrib_right, arg_and_mask]
    decide

theorem decode_rdr_iff (cw : CommandWord) :
    (∃ r, decode cw = .ok (.rdr r)) ↔ opField cw = 6 ∧ rsvField cw = 0 := by
  constructor
  · rintro ⟨r, h⟩
    obtain ⟨hop, hrsv, -⟩ := Laws.EncodedFields.rdr r
    rw [encode_of_decode h] at hop hrsv
    exact ⟨hop, hrsv⟩
  · rintro ⟨hop, hrsv⟩
    rw [← word_of_fields hrsv, decode_word, hop]
    exact ⟨_, rfl⟩

end Sys2Proof

namespace Sys2Proof.Machine

/-! ### Responses (30_encoding.md R64) -/

/-- A value of at most 8 bits is answered zero-extended to the response word. -/
theorem State.respond_value {w : Nat} (hw : w ≤ 8) (s : State) (v : BitVec w) :
    s.respond (.value (v.setWidth 8)) = { s with rsp := some (v.setWidth 16) } := by
  have hword : (Answer.value (v.setWidth 8)).word = v.setWidth 16 :=
    BitVec.setWidth_setWidth fun h => Nat.not_lt.2 hw h.1
  rw [← hword]
  rfl

/-! ### What `RDP`, `RDB` and `RDR` do -/

/-- `RDP` without an accepted reply, or beyond its payload, is refused. -/
theorem exec_rdp_of_not {s : State} {i : Byte} (h : ¬(s.status = .stOk ∧ i.toNat < s.payloadLen)) :
    exec (.rdp i) s = .next (s.respond (.refuse .eIdx)) := if_neg h

/-- Below `CNT`, `RDB` answers what the buffer holds. -/
theorem exec_rdb_of_lt {s : State} {i : Byte} (h : i.toNat < s.count) :
    exec (.rdb i) s = s.answer ((s.load i.toNat).map .value) := if_pos h

/-- With three bytes held, `RDR LEN` answers the third. -/
theorem exec_rdr_len {s : State} (h : 3 ≤ s.count) :
    exec (.rdr .len) s = s.answer ((s.load 2).map .value) := congrArg s.answer (if_pos h)

/-- With fewer bytes held, `LEN` has no value. -/
theorem exec_rdr_len_of_lt {s : State} (h : s.count < 3) :
    exec (.rdr .len) s = .next (s.respond (.refuse .eNoval)) :=
  congrArg s.answer (if_neg (Nat.not_le.2 h))

/-! ### What the invariant says of `PLEN` (10_state.md R15) -/

theorem State.Inv.payloadLen_le {s : State} (h : s.Inv) : s.payloadLen ≤ 57 := by
  by_cases hst : s.status = .stOk
  · obtain ⟨-, -, -, -, -, -, -, hlen⟩ := h.accepted hst
    have hcount : s.count ≤ 64 := h.count_le
    omega
  · simp [h.payloadLen_eq_zero hst]

/-! ### The obligations -/

/-- Settles O35: the word by the decoder, both outcomes by the meaning of `RDP`; under the invariant the payload
ends one byte below `CNT`, and every byte below `CNT` holds a value. -/
theorem rdpReadsPayload : Obligations.RdpReadsPayload := by
  refine ⟨fun cw i => decode_eq_ok_iff_of_encode (i := .rdp i) (decode_word 0x4 i) cw,
    fun s i b => exec_rdp_of_lt, fun s i => exec_rdp_of_not,
    fun s i hinv => ⟨hinv.payloadLen_le, fun hst => ?_⟩⟩
  obtain ⟨-, -, -, -, -, -, -, hlen⟩ := hinv.accepted hst
  exact ⟨hlen, fun hi => ⟨by omega, hinv.load_isSome (by omega)⟩⟩

/-- Settles O36: `CNT` alone decides between the two outcomes, and it is at most 64 under the invariant. -/
theorem rdbReadsBuffer : Obligations.RdbReadsBuffer := by
  refine ⟨fun cw i => decode_eq_ok_iff_of_encode (i := .rdb i) (decode_word 0x5 i) cw,
    fun s i b hi hb => ?_, fun s i => exec_rdb_of_le,
    fun s i hinv hi => exec_rdb_of_le (hinv.count_le.trans hi), fun s h3 => ?_⟩
  · rw [exec_rdb_of_lt hi, hb]
    rfl
  · rw [exec_rdb_of_lt (i := 2) h3, exec_rdr_len h3]
    rfl

/-- Settles O37, register by register: each answers its value, of at most 8 bits, or the refusal of a view
without a value or of a reserved number. -/
theorem rdrReadsRegisters : Obligations.RdrReadsRegisters := by
  refine ⟨fun cw => (decode_rdr_iff cw).trans (and_mask_eq_rdr_iff cw).symm, fun n => decode_word 0x6 n,
    fun s => ⟨?_, ?_, rfl, ?_⟩, fun s x => exec_rdr_csum, fun s l h3 hl => ?_,
    fun s => exec_rdr_len_of_lt, fun s h c hh hc => ?_, fun s n hn => ?_⟩
  · exact congrArg Host.Outcome.next (s.respond_value (by decide) s.status.code)
  · exact congrArg Host.Outcome.next (s.respond_value (by decide) s.cnt)
  · exact congrArg Host.Outcome.next (s.respond_value (by decide) s.plen)
  · refine (exec_rdr_len h3).trans ?_
    rw [hl]
    rfl
  · exact (exec_rdr_flags hh hc).trans
      (congrArg Host.Outcome.next (s.respond_value (by decide) (flagsWord h c s.ovf)))
  · rw [Reg.ofNumber_of_seven_le hn]
    rfl

end Sys2Proof.Machine
end

-- ==== the proofs of the statements of spec 60_exceptions.md ====
section
/-!
PROOFS. The statements of 60_exceptions.md: the table of the refusals, what a validation error records, and the
priority table of the checks. The lemmas come first, in the order of the model's definitions; each obligation is
assembled from them at the end.
-/

namespace Sys2Proof

/-! ### Which commands name a reserved register (10_state.md R22) -/

theorem Reg.seven_le_of_ofNumber {n m : Byte} (h : Reg.ofNumber n = .reserved m) : 7 ≤ m.toNat := by
  unfold Reg.ofNumber at h
  split at h
  case h_8 =>
    cases h
    grind
  all_goals cases h

/-- The decoder calls no number below 7 reserved. -/
theorem seven_le_of_decode_reserved {cw : CommandWord} {n : Byte}
    (h : decode cw = .ok (.rdr (.reserved n))) : 7 ≤ n.toNat := by
  rw [← encode_of_decode h] at h
  exact Reg.seven_le_of_ofNumber
    (Instr.rdr.inj (Except.ok.inj ((decode_word 0x6 n).symm.trans h)))

end Sys2Proof

namespace Sys2Proof.Machine

/-! ### Responses: `ERR` and the five refusal words (30_encoding.md R64) -/

/-- A value has at most 8 bits, so bit 15 is clear. -/
theorem isRefusal_word_value (v : Byte) : isRefusal (Answer.value v).word = false := by
  rw [Answer.word_value, isRefusal, BitVec.getLsbD_setWidth, BitVec.getLsbD_of_ge v 15 (by decide)]
  rfl

theorem isRefusal_word_refuse (c : RefusalCode) : isRefusal (Answer.refuse c).word = true := by
  cases c <;> rfl

theorem Answer.word_value_ne_refuse (v : Byte) (c : RefusalCode) :
    (Answer.value v).word ≠ (Answer.refuse c).word := fun h => by
  have herr := congrArg isRefusal h
  rw [isRefusal_word_value, isRefusal_word_refuse] at herr
  cases herr

/-- Each refusal reason has a word of its own. -/
theorem Answer.word_refuse_inj {c c' : RefusalCode} :
    (Answer.refuse c).word = (Answer.refuse c').word ↔ c = c' := by
  cases c <;> cases c' <;> decide

/-! ### The table of the refusals (60_exceptions.md R148) -/

/-- The rows of the table: the command words refused in a state, and the reason each is answered with.
`perform_of_refuses` and `perform_next_answer` say that these are the refusals of `perform` and no others. -/
inductive Refuses (cw : CommandWord) (s : State) : RefusalCode → Prop where
  | illegal (err : DecodeError) (hd : decode cw = .error err) : Refuses cw s .eIll
  | pushFull (b : Byte) (hd : decode cw = .ok (.push b)) (hfull : 64 ≤ s.count) : Refuses cw s .eFull
  | payloadIndex (i : Byte) (hd : decode cw = .ok (.rdp i))
      (hi : ¬(s.status = .stOk ∧ i.toNat < s.payloadLen)) : Refuses cw s .eIdx
  | bufferIndex (i : Byte) (hd : decode cw = .ok (.rdb i)) (hi : s.count ≤ i.toNat) :
      Refuses cw s .eIdx
  | reservedReg (n : Byte) (hd : decode cw = .ok (.rdr (.reserved n))) : Refuses cw s .eReg
  | noLength (hd : decode cw = .ok (.rdr .len)) (h3 : s.count < 3) : Refuses cw s .eNoval

/-- All that a refusal does: it answers its reason, and `E_FULL` sets `OVF`. -/
def State.refused (s : State) (c : RefusalCode) : State :=
  { s with ovf := if c = .eFull then true else s.ovf, rsp := some (Answer.refuse c).word }

/-- A command word in a row of the table is refused with the reason of the row. -/
theorem perform_of_refuses {cw : CommandWord} {s : State} {c : RefusalCode} (h : Refuses cw s c) :
    perform cw s = .next (s.refused c) := by
  cases h with
  | illegal err hd => exact perform_error hd s
  | pushFull b hd hfull => exact (perform_ok hd s).trans (exec_push_of_le s b hfull)
  | payloadIndex i hd hi => exact (perform_ok hd s).trans (exec_rdp_of_not hi)
  | bufferIndex i hd hi => exact (perform_ok hd s).trans (exec_rdb_of_le hi)
  | reservedReg n hd => exact perform_ok hd s
  | noLength hd h3 => exact (perform_ok hd s).trans (exec_rdr_len_of_lt h3)

/-- The two register reads that are refused. -/
theorem State.readReg_eq_refuse {s : State} {r : Reg} {c : RefusalCode}
    (h : s.readReg r = some (.refuse c)) :
    (r = .len ∧ s.count < 3 ∧ c = .eNoval) ∨ ∃ n, r = .reserved n ∧ c = .eReg := by
  cases r with
  | len =>
    by_cases h3 : 3 ≤ s.count
    · simp [State.readReg, h3] at h
    · simp only [State.readReg, if_neg h3] at h
      cases h
      exact .inl ⟨rfl, Nat.not_le.1 h3, rfl⟩
  | reserved n =>
    cases h
    exact .inr ⟨n, rfl, rfl⟩
  | _ => simp [State.readReg] at h

/-- A transaction answers a value, or it stands in a row of the table. -/
theorem perform_next_answer {cw : CommandWord} {s t : State} (h : perform cw s = .next t) :
    (∃ v, t.rsp = some (Answer.value v).word) ∨ ∃ c, Refuses cw s c := by
  rcases perform_next h with ⟨i, hd, hexec⟩ | ⟨⟨err, hd⟩, -⟩
  case inr => exact .inr ⟨.eIll, .illegal err hd⟩
  cases i with
  | nop => cases hexec; exact .inl ⟨_, rfl⟩
  | clr => cases hexec; exact .inl ⟨_, rfl⟩
  | push b =>
    rcases exec_push_next hexec with ⟨-, rfl⟩ | ⟨hfull, -⟩
    · exact .inl ⟨_, rfl⟩
    · exact .inr ⟨_, .pushFull b hd hfull⟩
  | val e => obtain ⟨v, -, rfl⟩ := exec_val_next hexec; exact .inl ⟨_, rfl⟩
  | rdp k =>
    rcases exec_rdp_next hexec with ⟨-, -, b, -, rfl⟩ | ⟨hi, -⟩
    · exact .inl ⟨b, rfl⟩
    · exact .inr ⟨_, .payloadIndex k hd hi⟩
  | rdb k =>
    rcases exec_rdb_next hexec with ⟨-, b, -, rfl⟩ | ⟨hi, -⟩
    · exact .inl ⟨b, rfl⟩
    · exact .inr ⟨_, .bufferIndex k hd hi⟩
  | rdr r =>
    obtain ⟨a, ha, rfl⟩ := exec_rdr_next hexec
    cases a with
    | value v => exact .inl ⟨v, rfl⟩
    | refuse c =>
      rcases State.readReg_eq_refuse ha with ⟨rfl, h3, -⟩ | ⟨n, rfl, -⟩
      · exact .inr ⟨_, .noLength hd h3⟩
      · exact .inr ⟨_, .reservedReg n hd⟩

/-- A refusal word is answered exactly in the rows of its reason. -/
theorem rsp_eq_refusal_iff {cw : CommandWord} {s t : State} (h : perform cw s = .next t)
    (c : RefusalCode) : t.rsp = some (Answer.refuse c).word ↔ Refuses cw s c := by
  constructor
  · intro hrsp
    rcases perform_next_answer h with ⟨v, hv⟩ | ⟨c', hc'⟩
    · exact absurd (Option.some.inj (hv.symm.trans hrsp)) (Answer.word_value_ne_refuse v c)
    · cases h.symm.trans (perform_of_refuses hc')
      exact Answer.word_refuse_inj.1 (Option.some.inj hrsp) ▸ hc'
  · intro hc
    cases h.symm.trans (perform_of_refuses hc)
    rfl

/-! The table read by its reasons. -/

section reasons

variable {cw : CommandWord} {s : State}

theorem refuses_eIll_iff : Refuses cw s .eIll ↔ ∀ i, decode cw ≠ .ok i := by
  constructor
  · intro | .illegal err hd => simp [hd]
  · intro h
    cases hd : decode cw with
    | ok i => exact absurd hd (h i)
    | error err => exact .illegal err hd

theorem refuses_eFull_iff :
    Refuses cw s .eFull ↔ (∃ b, decode cw = .ok (.push b)) ∧ 64 ≤ s.count :=
  ⟨fun | .pushFull b hd hfull => ⟨⟨b, hd⟩, hfull⟩, fun ⟨⟨b, hd⟩, hfull⟩ => .pushFull b hd hfull⟩

theorem refuses_eIdx_iff :
    Refuses cw s .eIdx ↔
      (∃ i, decode cw = .ok (.rdp i) ∧ ¬(s.status = .stOk ∧ i.toNat < s.payloadLen)) ∨
        ∃ i, decode cw = .ok (.rdb i) ∧ s.count ≤ i.toNat :=
  ⟨fun
    | .payloadIndex i hd hi => .inl ⟨i, hd, hi⟩
    | .bufferIndex i hd hi => .inr ⟨i, hd, hi⟩,
   fun
    | .inl ⟨i, hd, hi⟩ => .payloadIndex i hd hi
    | .inr ⟨i, hd, hi⟩ => .bufferIndex i hd hi⟩

theorem refuses_eReg_iff :
    Refuses cw s .eReg ↔ ∃ n : Byte, 7 ≤ n.toNat ∧ decode cw = .ok (.rdr (.reserved n)) :=
  ⟨fun | .reservedReg n hd => ⟨n, seven_le_of_decode_reserved hd, hd⟩,
    fun ⟨n, _, hd⟩ => .reservedReg n hd⟩

theorem refuses_eNoval_iff :
    Refuses cw s .eNoval ↔ decode cw = .ok (.rdr .len) ∧ s.count < 3 :=
  ⟨fun | .noLength hd h3 => ⟨hd, h3⟩, fun ⟨hd, h3⟩ => .noLength hd h3⟩

end reasons

/-- `NOP`, `CLR` and `VAL` stand in no row: each row names another command, or none. -/
theorem Refuses.decode_ne {cw : CommandWord} {s : State} {c : RefusalCode} (h : Refuses cw s c) :
    decode cw ≠ .ok .nop ∧ decode cw ≠ .ok .clr ∧ ∀ e, decode cw ≠ .ok (.val e) := by
  cases h <;> simp [*]

/-! ### What a command does to `STATUS` -/

/-- No command but `VAL` writes a verdict. -/
theorem exec_next_status {i : Instr} {s t : State} (hval : ∀ e, i ≠ .val e)
    (h : exec i s = .next t) : t.status = s.status ∨ t.status = .stNone := by
  cases i with
  | nop => cases h; exact .inl rfl
  | clr => cases h; exact .inr rfl
  | push b =>
    rcases exec_push_next h with ⟨-, rfl⟩ | ⟨-, rfl⟩
    · exact .inr rfl
    · exact .inl rfl
  | val e => exact absurd rfl (hval e)
  | rdp k => obtain ⟨a, rfl⟩ := exec_quiet_next rfl h; exact .inl rfl
  | rdb k => obtain ⟨a, rfl⟩ := exec_quiet_next rfl h; exact .inl rfl
  | rdr r => obtain ⟨a, rfl⟩ := exec_quiet_next rfl h; exact .inl rfl

/-! ### Reads that do not look at the result registers (60_exceptions.md R150) -/

/-- An answer given in another state leaves that state's elements. -/
theorem State.answer_eq_andThen (s t : State) (a : Option Answer) :
    t.answer a = andThen (s.answer a) fun u => .next { t with rsp := u.rsp } := by cases a <;> rfl

/-- `RDB` sees only `BUF` and `CNT`, which a verdict leaves alone. -/
theorem exec_rdb_writeVerdict (s : State) (v : Verdict) (i : Byte) :
    exec (.rdb i) (s.writeVerdict v) =
      andThen (exec (.rdb i) s) fun u => .next { s.writeVerdict v with rsp := u.rsp } := by
  by_cases hi : i.toNat < s.count
  · rw [exec_rdb_of_lt hi, exec_rdb_of_lt (s := s.writeVerdict v) hi]
    exact s.answer_eq_andThen (s.writeVerdict v) _
  · rw [exec_rdb_of_le (Nat.not_lt.1 hi), exec_rdb_of_le (s := s.writeVerdict v) (Nat.not_lt.1 hi)]
    rfl

/-- `LEN`, `CNT` and `CSUM` are read off `BUF` and `CNT` alone. -/
theorem State.readReg_writeVerdict (s : State) (v : Verdict) {r : Reg}
    (hr : r ∈ [Reg.len, Reg.cnt, Reg.csum]) : (s.writeVerdict v).readReg r = s.readReg r := by
  simp only [List.mem_cons, List.not_mem_nil, or_false] at hr
  rcases hr with rfl | rfl | rfl <;> rfl

theorem exec_rdr_writeVerdict (s : State) (v : Verdict) {r : Reg}
    (hr : r ∈ [Reg.len, Reg.cnt, Reg.csum]) :
    exec (.rdr r) (s.writeVerdict v) =
      andThen (exec (.rdr r) s) fun u => .next { s.writeVerdict v with rsp := u.rsp } := by
  show (s.writeVerdict v).answer _ = andThen (s.answer _) _
  rw [s.readReg_writeVerdict v hr]
  exact s.answer_eq_andThen (s.writeVerdict v) _

/-! ### The priority table (60_exceptions.md R149) -/

/-- Checks 3 to 6, row by row: each status with the condition of its row and the earlier checks passed. -/
theorem decodeBody_status_iff {e : Byte} {B : Nat → Option Byte} {l : Nat} {v : Verdict}
    (h : decodeBody e B l = some v) :
    (v.status = .stFormat ↔ B 3 ≠ some 0x02) ∧
    (v.status = .stResult ↔ B 3 = some 0x02 ∧ B 4 ≠ some 0x00) ∧
    (v.status = .stCommand ↔ B 3 = some 0x02 ∧ B 4 = some 0x00 ∧ B 5 ≠ some e) ∧
    (v.status = .stChecksum ↔ B 3 = some 0x02 ∧ B 4 = some 0x00 ∧ B 5 = some e ∧
      xor8 B 0 (l + 3) ≠ B (l + 3)) ∧
    (v.status = .stOk ↔ B 3 = some 0x02 ∧ B 4 = some 0x00 ∧ B 5 = some e ∧
      xor8 B 0 (l + 3) = B (l + 3)) := by
  obtain ⟨m, h3, ⟨hm, rfl⟩ |
    ⟨rfl, rc, h4, ⟨hrc, rfl⟩ | ⟨rfl, o, h5, ⟨ho, rfl⟩ | ⟨rfl, x, c, hx, hc, hlast⟩⟩⟩⟩ :=
    decodeBody_cases h
  · simp [h3, hm]
  · simp [h3, h4, hrc]
  · simp [h3, h4, h5, ho]
  rcases hlast with ⟨hne, rfl⟩ | ⟨heq, rfl⟩
  · simp [h3, h4, h5, hx, hc, hne]
  · simp [h3, h4, h5, hx, hc, heq]

/-- Where the third byte is held, what is said of every value it has is said of that value. -/
theorem forall_length_byte_iff {bs : List Byte} {l : Byte} (h2 : bytesOf bs 2 = some l)
    (p : Byte → Prop) : (∀ l', bs[2]? = some l' → p l') ↔ p l := by
  have h2' : bs[2]? = some l := h2
  simp [h2']

/-! ### The obligations -/

/-- Settles O26: the verdict records its status and, for `ST_RESULT`, byte 4, and no element that `RDB`, `LEN`,
`CNT` or `CSUM` is read off. -/
theorem validationErrorRecords : Obligations.ValidationErrorRecords := by
  intro s t e h hst
  obtain ⟨v, hv, rfl⟩ := exec_val_next h
  have hplen : BitVec.ofNat 6 v.plen = 0 := by
    rw [decodeReply_plen_of_ne_ok hv hst]
    rfl
  refine ⟨?_, decodeReply_rcode_of_result hv, decodeReply_rcode_of_ne_result hv,
    fun i => ?_, fun r hr => ?_⟩
  · rw [← hplen, ← Status.value_word]
    rfl
  · rw [exec_respond]
    exact exec_rdb_writeVerdict s v i
  · rw [exec_respond]
    exact exec_rdr_writeVerdict s v hr

/-- Settles O40: `Refuses` is the table, and its rows are the refusals of `perform` and no others. -/
theorem refusalTable : Obligations.RefusalTable := by
  intro cw s t hle h
  refine ⟨(rsp_eq_refusal_iff h .eIll).trans refuses_eIll_iff, (rsp_eq_refusal_iff h .eFull).trans ?_,
    (rsp_eq_refusal_iff h .eIdx).trans ?_, (rsp_eq_refusal_iff h .eReg).trans refuses_eReg_iff,
    (rsp_eq_refusal_iff h .eNoval).trans refuses_eNoval_iff, fun r hrsp hr => ?_⟩
  · have hfull : s.count = 64 ↔ 64 ≤ s.count := ⟨ge_of_eq, Nat.le_antisymm hle⟩
    rw [refuses_eFull_iff, hfull]
  · simp only [refuses_eIdx_iff, not_and_or, Nat.not_lt, ne_eq]
  · rcases perform_next_answer h with ⟨v, hv⟩ | ⟨c, hc⟩
    · cases hv.symm.trans hrsp
      rw [isRefusal_word_value] at hr
      cases hr
    · cases h.symm.trans (perform_of_refuses hc)
      cases hrsp
      refine ⟨?_, rfl, rfl, rfl, rfl, rfl, ?_, hc.decode_ne⟩
      · cases c <;> decide
      · cases c <;> rfl

/-- Settles O27, check by check: the rows above the one that fails do not hold, since those checks passed. -/
theorem verdictPriority : Obligations.VerdictPriority := by
  refine ⟨fun s t e bs hbs h => ?_, fun s t e h => ?_, fun i s t => exec_next_status,
    fun cw err s h => ⟨_, perform_error h s, rfl⟩⟩
  · intro n row1 row2 row3 row4 row5 row6 row7 row8
    obtain ⟨v, hv, rfl⟩ := exec_val_next h
    rw [hbs.decodeReply_eq e] at hv
    rw [State.respond_status, State.writeVerdict_status]
    rcases decodeReply_cases hv with ⟨rfl, hfail⟩ | ⟨hn, h0, h1, hrest⟩
    · have hrow1 : row1 := hfail
      simp [hrow1]
    have hrow1 : ¬row1 := not_or.2 ⟨Nat.not_lt.2 hn, not_or.2 ⟨not_not.2 h0, not_not.2 h1⟩⟩
    rcases hrest with ⟨rfl, hfail⟩ | ⟨l, h2, hl, hl3, hbody⟩
    · have hrow : row2 ∨ row3 ∨ row4 := by
        rcases hfail with htwo | ⟨-, l, h2, hbad⟩
        · exact .inl htwo
        · refine .inr ?_
          simp only [row3, row4, forall_length_byte_iff h2]
          exact hbad
      rcases hrow with hrow2 | hrow3 | hrow4
      · simp [hrow1, hrow2]
      · simp [hrow1, hrow3]
      · simp [hrow1, hrow4]
    have hrow2 : ¬row2 := by omega
    have hrow3 : ¬row3 := by simpa [row3, forall_length_byte_iff h2] using hl
    have hrow4 : ¬row4 := by simpa [row4, forall_length_byte_iff h2] using hl3
    have hlast : n - 1 = l.toNat + 3 := by omega
    obtain ⟨hhdr, hlen⟩ := decodeBody_status hbody
    simp only [hrow1, hrow2, hrow3, hrow4, hhdr, hlen, row5, row6, row7, row8, hlast, not_ne_iff,
      not_false_eq_true, false_or, and_false, true_and]
    exact decodeBody_status_iff hbody
  · obtain ⟨v, -, rfl⟩ := exec_val_next h
    exact ⟨_, rfl, isRefusal_word_value _, Status.value_word _⟩

end Sys2Proof.Machine
end

-- ==== the proofs of the statements of spec 70_reset_and_hazards.md ====
section
/-!
PROOFS. The statements of 70_reset_and_hazards.md: no command tells a reset from a `CLR`, and the bytes beyond
the 64th are dropped. The lemmas come first; each obligation is assembled from them at the end.
-/

namespace Sys2Proof.Machine

/-- A reset differs from `CLR` in the response word alone (70_reset_and_hazards.md R160). -/
theorem resetEvent_respond (s : State) (a : Answer) :
    (resetEvent s).respond a = s.clearBlock.respond a := rfl

/-! ### Pushes on a full buffer (40_intake.md R83) -/

/-- However many bytes are pushed on a full buffer, all are dropped, and one is enough to set `OVF`. -/
theorem foldInstrs_push_of_full {s : State} (hfull : 64 ≤ s.count) (c : Byte) (cs : List Byte) :
    foldInstrs ((c :: cs).map Instr.push) s = .next s.pushFull := by
  induction cs generalizing s c with
  | nil => exact (foldInstrs_singleton _ s).trans (exec_push_of_le s c hfull)
  | cons d ds ih =>
    rw [List.map_cons, foldInstrs_cons_of_next (exec_push_of_le s c hfull)]
    exact ih (s := s.pushFull) hfull d

/-- From every state, a command after `CLR` and the pushes of more than 64 bytes finds the first 64 held and
`OVF` set. -/
theorem foldInstrs_clr_push_of_lt (s : State) {bs : List Byte} (hlong : 64 < bs.length) :
    ∃ t, t.Holds (bs.take 64) ∧ t.ovf = true ∧
      ∀ i, foldInstrs (.clr :: (bs.map Instr.push ++ [i])) s = exec i t := by
  have hlen : (bs.take 64).length = 64 := List.length_take_of_le hlong.le
  obtain ⟨u, hfits, hholds, -⟩ :=
    foldInstrs_push (s := s.clearBlock.respond (.value 0x00)) s.clearBlock_holds (bs.take 64)
      (by simp [hlen])
  have hfull : 64 ≤ u.count := (hholds.1.trans hlen).ge
  have hdrop : foldInstrs ((bs.drop 64).map Instr.push) u = .next u.pushFull := by
    rw [List.drop_eq_getElem_cons hlong]
    exact foldInstrs_push_of_full hfull _ _
  refine ⟨u.pushFull, hholds, rfl, fun i => ?_⟩
  have hsplit : bs.map Instr.push = (bs.take 64).map Instr.push ++ (bs.drop 64).map Instr.push := by
    rw [← List.map_append, List.take_append_drop]
  rw [foldInstrs_cons_of_next (exec_clr s), hsplit, List.append_assoc, foldInstrs_append, hfits]
  show foldInstrs (_ ++ [i]) u = _
  rw [foldInstrs_append, hdrop]
  exact foldInstrs_singleton i _

/-- From every state, `CLR`, the pushes of more than 64 bytes and `VAL` judge the first 64. -/
theorem foldInstrs_clr_push_val_of_lt (s : State) (e : Byte) {bs : List Byte} (hlong : 64 < bs.length) :
    ∃ t v, foldInstrs (.clr :: (bs.map Instr.push ++ [.val e])) s = .next t ∧
      decodeReply e (bytesOf (bs.take 64)) 64 = some v ∧
      t.Holds (bs.take 64) ∧ t.status = v.status ∧ t.ovf = true := by
  have hlen : (bs.take 64).length = 64 := List.length_take_of_le hlong.le
  obtain ⟨u, hholds, hovf, hrun⟩ := foldInstrs_clr_push_of_lt s hlong
  obtain ⟨t, v, hval, hv, hkeep, hst, -, -, ho, -⟩ := hholds.exec_val hlen.le e
  rw [hlen] at hv
  exact ⟨t, v, (hrun _).trans hval, hv, hkeep, hst, ho.trans hovf⟩

/-! ### Replies at and beyond the limit -/

/-- A reply has at most 252 data bytes. -/
theorem length_le_of_makeReply {rc o : Byte} {P F : List Byte} (h : makeReply rc o P = some F) :
    P.length ≤ 252 :=
  Nat.not_lt.1 fun hlt => by simp [makeReply, Nat.not_le.2 hlt] at h

/-- The first 64 bytes of a longer reply declare more bytes than they are: check 2 fails, whatever opcode is
expected (41_validate.md R96). -/
theorem decodeReply_take_makeReply {rc o : Byte} {P F : List Byte} (h : makeReply rc o P = some F)
    (hlong : 64 < F.length) (e : Byte) :
    decodeReply e (bytesOf (F.take 64)) 64 = some (.error .stLength) := by
  have hle := length_le_of_makeReply h
  rw [makeReply_of_le hle] at h
  obtain ⟨c, -, rfl⟩ := (appendChecksum_eq_some_iff _ _).1 h
  have hdecl : (BitVec.ofNat 8 (3 + P.length)).toNat = 3 + P.length := Nat.mod_eq_of_lt (by omega)
  have hdata : 58 ≤ P.length := by simpa using hlong
  exact decodeReply_bad_length (by decide) rfl rfl rfl (.inl (by omega))

/-! ### The obligations -/

/-- Settles O7: the two states differ in the response word alone, which no command sees. -/
theorem resetLooksLikeClear : Obligations.ResetLooksLikeClear := by
  rintro s _ _ ⟨⟩ ⟨⟩
  refine ⟨rfl, fun i => ?_⟩
  rw [← resetEvent_respond, exec_respond]

/-- Settles O53: `VAL` judges the first 64 bytes; of a longer reply these fail check 2, and of a 64-byte reply
with a stray byte after it they are the reply. -/
theorem bytesBeyondLimitDropped : Obligations.BytesBeyondLimitDropped := by
  refine ⟨fun s e _ => foldInstrs_clr_push_val_of_lt s e, fun s o rc P F hF hlong => ?_,
    fun s o x P F hF hlen => ?_⟩
  · obtain ⟨t, v, hrun, hv, -, hst, -⟩ := foldInstrs_clr_push_val_of_lt s o hlong
    cases hv.symm.trans (decodeReply_take_makeReply hF hlong o)
    exact ⟨t, hrun, hst⟩
  · have hlong : 64 < (F ++ [x]).length := by simp [hlen]
    obtain ⟨t, v, hrun, hv, -, hst, hovf⟩ := foldInstrs_clr_push_val_of_lt s o hlong
    have hreply := decodeReply_makeReply (length_le_of_makeReply hF) hF
    rw [List.take_left' hlen, ← hlen] at hv
    cases hv.symm.trans hreply
    exact ⟨t, hrun, hovf, hst⟩

end Sys2Proof.Machine
end

-- ==== the proofs of the statements of the family other ====
section
/-!
PROOFS. The statements that cut across the spec's files: decoding and encoding, the step and its invariants,
the frames of the commands, what cannot be observed, the whole exchange and the assembler. The lemmas come
first, in the order of the model's definitions; each obligation is assembled from them at the end.
-/

namespace Sys2Proof

/-! ### Decoding and encoding (30_encoding.md R62, R65) -/

/-- The numbers of the named registers are those below 7, so a well-formed register is found by its number. -/
theorem Reg.ofNumber_number {r : Reg} (h : r.wf = true) : Reg.ofNumber r.number = r := by
  cases r with
  | reserved n => exact Reg.ofNumber_of_seven_le (of_decide_eq_true h)
  | _ => rfl

theorem Reg.wf_ofNumber (n : Byte) : (Reg.ofNumber n).wf = true := by
  cases hr : Reg.ofNumber n with
  | reserved m => exact decide_eq_true (Reg.seven_le_of_ofNumber hr)
  | _ => rfl

theorem decodeOp_op_arg {i : Instr} (h : i.wf = true) : decodeOp i.op i.arg = .ok i := by
  cases i with
  | rdr r => exact congrArg (fun r => Except.ok (Instr.rdr r)) (Reg.ofNumber_number h)
  | _ => rfl

theorem decode_encode {i : Instr} (h : i.wf = true) : decode (encode i) = .ok i :=
  (decode_word i.op i.arg).trans (decodeOp_op_arg h)

theorem wf_of_decode {cw : CommandWord} {i : Instr} (h : decode cw = .ok i) : i.wf = true := by
  cases i with
  | rdr r =>
    cases r with
    | reserved n => exact decide_eq_true (seven_le_of_decode_reserved h)
    | _ => rfl
  | _ => rfl

/-! ### The opcode map (30_encoding.md B.2) -/

/-- The row of the opcode map a command stands in; `mem_opcodeMap_selects_iff` says that it is the one row the
command's words select. -/
def Instr.row : Instr → OpRow
  | .nop => ⟨"NOP", 0x0000, 0xFFFF⟩
  | .clr => ⟨"CLR", 0x1000, 0xFFFF⟩
  | .push _ => ⟨"PUSH", 0x2000, 0xFF00⟩
  | .val _ => ⟨"VAL", 0x3000, 0xFF00⟩
  | .rdp _ => ⟨"RDP", 0x4000, 0xFF00⟩
  | .rdb _ => ⟨"RDB", 0x5000, 0xFF00⟩
  | .rdr _ => ⟨"RDR", 0x6000, 0xFF00⟩

theorem Instr.row_mem (i : Instr) : i.row ∈ opcodeMap := by
  cases i <;> simp [Instr.row, opcodeMap]

theorem Instr.row_mnemonic (i : Instr) : i.row.mnemonic = i.mnemonic := by cases i <;> rfl

/-- The mask of a command with an operand leaves the operation of a word whose bits below it are clear. -/
theorem word_and_mask (op : BitVec 4) (arg : Byte) :
    ((op.setWidth 16 <<< 12) ||| arg.setWidth 16) &&& (0xFF00 : CommandWord) = op.setWidth 16 <<< 12 := by
  rw [BitVec.and_or_distrib_right, arg_and_mask]
  refine BitVec.or_zero.trans ?_
  revert op
  decide

/-- A command's word selects the command's row. -/
theorem Instr.row_selects (i : Instr) : i.row.selects (encode i) = true := by
  cases i with
  | nop | clr => rfl
  | push b => exact beq_iff_eq.2 (word_and_mask 0x2 b)
  | val e => exact beq_iff_eq.2 (word_and_mask 0x3 e)
  | rdp k => exact beq_iff_eq.2 (word_and_mask 0x4 k)
  | rdb k => exact beq_iff_eq.2 (word_and_mask 0x5 k)
  | rdr r => exact beq_iff_eq.2 (word_and_mask 0x6 r.number)

theorem opField_and_mask (cw : CommandWord) : opField (cw &&& 0xFF00) = opField cw := by
  rw [opField, BitVec.extractLsb'_and]
  exact BitVec.and_allOnes

theorem rsvField_and_mask (cw : CommandWord) : rsvField (cw &&& 0xFF00) = rsvField cw := by
  rw [rsvField, BitVec.extractLsb'_and]
  exact BitVec.and_allOnes

/-- A word that matches in the bits above its argument is decoded by its operation. -/
theorem decode_of_and_mask {cw : CommandWord} {op : BitVec 4}
    (h : cw &&& 0xFF00 = op.setWidth 16 <<< 12) : decode cw = decodeOp op (argField cw) := by
  obtain ⟨hop, hrsv, -⟩ := Laws.EncodedFields.fields_of_word op 0
  have hword : (op.setWidth 16 <<< 12) ||| (0 : Byte).setWidth 16 = cw &&& 0xFF00 :=
    BitVec.or_zero.trans h.symm
  rw [hword, opField_and_mask] at hop
  rw [hword, rsvField_and_mask] at hrsv
  rw [← decode_word, ← hop, word_of_fields hrsv]

/-- The mask of a command without an operand keeps every bit, so its row is selected by one word. -/
theorem eq_of_and_mask {cw m : CommandWord} (h : (cw &&& 0xFFFF == m) = true) : cw = m :=
  BitVec.and_allOnes.symm.trans (beq_iff_eq.1 h)

/-- A word selects exactly the row of the command it decodes to. -/
theorem mem_opcodeMap_selects_iff (cw : CommandWord) (r : OpRow) :
    r ∈ opcodeMap ∧ r.selects cw = true ↔ ∃ i, decode cw = .ok i ∧ i.row = r := by
  constructor
  · rintro ⟨hr, hsel⟩
    simp only [opcodeMap, List.mem_cons, List.not_mem_nil, or_false] at hr
    rcases hr with rfl | rfl | rfl | rfl | rfl | rfl | rfl
    · exact ⟨.nop, eq_of_and_mask hsel ▸ rfl, rfl⟩
    · exact ⟨.clr, eq_of_and_mask hsel ▸ rfl, rfl⟩
    · exact ⟨_, decode_of_and_mask (op := 0x2) (beq_iff_eq.1 hsel), rfl⟩
    · exact ⟨_, decode_of_and_mask (op := 0x3) (beq_iff_eq.1 hsel), rfl⟩
    · exact ⟨_, decode_of_and_mask (op := 0x4) (beq_iff_eq.1 hsel), rfl⟩
    · exact ⟨_, decode_of_and_mask (op := 0x5) (beq_iff_eq.1 hsel), rfl⟩
    · exact ⟨_, decode_of_and_mask (op := 0x6) (beq_iff_eq.1 hsel), rfl⟩
  · rintro ⟨i, hd, rfl⟩
    exact ⟨i.row_mem, encode_of_decode hd ▸ i.row_selects⟩

/-- A 16-bit word is read from the opcode table as it stands. -/
theorem tableWord_toNat (cw : CommandWord) : tableWord 16 cw.toNat = cw := by
  rw [tableWord, Nat.mod_eq_of_lt cw.isLt, BitVec.ofNat_toNat, BitVec.setWidth_eq]

end Sys2Proof

namespace Sys2Proof.Machine

/-! ### The assembler (30_encoding.md R69) -/

theorem readReg_wf {cs : List Char} {r : Reg} (h : readReg cs = some r) : r.wf = true := by
  unfold readReg at h
  split_ifs at h
  case neg =>
    obtain ⟨n, -, rfl⟩ := Option.map_eq_some_iff.1 h
    exact Reg.wf_ofNumber n
  all_goals cases h; rfl

theorem readPlain_wf {cs : List Char} {i : Instr} (h : readPlain cs = some i) : i.wf = true := by
  unfold readPlain at h
  split_ifs at h <;> cases h <;> rfl

theorem readWithOperand_wf {mn operand : List Char} {i : Instr}
    (h : readWithOperand mn operand = some i) : i.wf = true := by
  unfold readWithOperand at h
  split_ifs at h <;> obtain ⟨x, hx, rfl⟩ := Option.map_eq_some_iff.1 h
  exacts [rfl, rfl, rfl, rfl, readReg_wf hx]

/-- The assembler writes well-formed commands only. -/
theorem parseLine_wf {line : List Char} {i : Instr} (h : parseLine line = some i) : i.wf = true := by
  unfold parseLine at h
  split at h
  · exact readPlain_wf h
  · exact readWithOperand_wf h
  · cases h

/-! ### Response words (30_encoding.md R64) -/

/-- Bits 14 to 8 of a response word are clear, and a word with `ERR` set is a refusal's. -/
theorem Answer.word_shape (a : Answer) :
    a.word.extractLsb' 8 7 = 0 ∧ (isRefusal a.word = true → ∃ c, a.word = (Answer.refuse c).word) := by
  cases a with
  | value v =>
    refine ⟨?_, fun h => ?_⟩
    · ext k hk
      simp
    · rw [isRefusal_word_value] at h
      cases h
  | refuse c => exact ⟨by cases c <;> rfl, fun _ => ⟨c, rfl⟩⟩

theorem perform_next_rsp {cw : CommandWord} {s t : State} (h : perform cw s = .next t) :
    ∃ a : Answer, t.rsp = some a.word := by
  rcases perform_next h with ⟨i, -, hexec⟩ | ⟨-, rfl⟩
  · exact exec_next_rsp hexec
  · exact ⟨_, rfl⟩

/-! ### What a command does to `BUF` -/

/-- All that a command can do to `BUF`. -/
theorem exec_next_buf {i : Instr} {s t : State} (h : exec i s = .next t) :
    t.buf = s.buf ∨ (i = .clr ∧ t.buf = []) ∨
      (s.count < 64 ∧ ∃ b, i = .push b ∧ t.buf = s.buf.write s.count b) := by
  cases i with
  | clr => cases h; exact .inr (.inl ⟨rfl, rfl⟩)
  | push b =>
    rcases exec_push_next h with ⟨hlt, rfl⟩ | ⟨-, rfl⟩
    · exact .inr (.inr ⟨hlt, b, rfl, rfl⟩)
    · exact .inl rfl
  | val e => obtain ⟨v, -, rfl⟩ := exec_val_next h; exact .inl rfl
  | nop | rdp k | rdb k | rdr r => obtain ⟨a, rfl⟩ := exec_quiet_next rfl h; exact .inl rfl

theorem exec_buf_wf {i : Instr} {s t : State} (hwf : s.buf.wf) (h : exec i s = .next t) : t.buf.wf := by
  rcases exec_next_buf h with hsame | ⟨-, hnil⟩ | ⟨hlt, b, -, hwrite⟩
  · rwa [hsame]
  · rw [hnil]; exact Memory.wf_nil
  · rw [hwrite]; exact s.buf.wf_write s.count b hwf hlt

theorem step_buf_wf {s t : State} (hwf : s.buf.wf) (h : step s = .next t) : t.buf.wf := by
  rcases step_cases h with ⟨-, rfl⟩ | ⟨rest, -, rfl⟩ | ⟨cw, rest, -, ⟨i, -, hexec⟩ | ⟨-, rfl⟩⟩
  · exact hwf
  · exact Memory.wf_nil
  · exact exec_buf_wf (s := s.taken rest) hwf hexec
  · exact hwf

/-! ### Under the invariant every command is carried out or refused (20_memory.md R45) -/

/-- Under the invariant the byte `RDP` reads lies below `CNT`. -/
theorem State.Inv.payload_lt_count {s : State} (h : s.Inv) (hst : s.status = .stOk) {k : Nat}
    (hk : k < s.payloadLen) : 6 + k < s.count := by
  obtain ⟨-, -, -, -, -, -, -, hlen⟩ := h.accepted hst
  omega

theorem exec_isNext_of_inv {s : State} (h : s.Inv) (i : Instr) : ∃ t, exec i s = .next t := by
  have hbytes : ∀ k, k < s.count → ∃ x, s.load k = some x := fun _ => h.load_isSome
  cases i with
  | nop => exact ⟨_, exec_nop s⟩
  | clr => exact ⟨_, exec_clr s⟩
  | push b =>
    rcases Nat.lt_or_ge s.count 64 with hlt | hfull
    · exact ⟨_, exec_push_of_lt s b hlt⟩
    · exact ⟨_, exec_push_of_le s b hfull⟩
  | val e =>
    obtain ⟨v, hv⟩ := decodeReply_isSome e s.load s.count hbytes
    exact ⟨_, exec_val_of_verdict hv⟩
  | rdp k =>
    by_cases hk : s.status = .stOk ∧ k.toNat < s.payloadLen
    · obtain ⟨hst, hlt⟩ := hk
      obtain ⟨b, hb⟩ := hbytes _ (h.payload_lt_count hst hlt)
      exact ⟨_, exec_rdp_of_lt hst hlt hb⟩
    · exact ⟨_, exec_rdp_of_not hk⟩
  | rdb k =>
    rcases Nat.lt_or_ge k.toNat s.count with hlt | hge
    · obtain ⟨b, hb⟩ := hbytes _ hlt
      exact ⟨_, (exec_rdb_of_lt hlt).trans (State.answer_next.2 ⟨_, congrArg _ hb, rfl⟩)⟩
    · exact ⟨_, exec_rdb_of_le hge⟩
  | rdr r =>
    obtain ⟨a, ha⟩ := s.readReg_isSome r hbytes
    exact ⟨_, State.answer_next.2 ⟨a, ha, rfl⟩⟩

theorem perform_isNext_of_inv {s : State} (h : s.Inv) (cw : CommandWord) :
    ∃ t, perform cw s = .next t := by
  cases hd : decode cw with
  | ok i => rw [perform_ok hd]; exact exec_isNext_of_inv h i
  | error err => exact ⟨_, perform_error hd s⟩

theorem step_isNext_of_inv {s : State} (h : s.Inv) : ∃ t, step s = .next t := by
  cases hi : s.inbox with
  | nil => exact ⟨s, step_of_nil hi⟩
  | cons ev rest =>
    rw [step_of_cons hi]
    cases ev with
    | command cw => exact perform_isNext_of_inv (h.taken rest) cw
    | reset => exact ⟨_, rfl⟩

/-! ### A verdict read before the last `VAL` (70_reset_and_hazards.md section 3) -/

/-- The pushes and the last `VAL` do not see an earlier `VAL`: a successful `PUSH` drops its verdict, and on a
full buffer the last `VAL` overwrites it. -/
theorem foldInstrs_push_val_of_verdict (e : Byte) (bs : List Byte) (s : State) (v : Verdict) (a : Answer) :
    foldInstrs (bs.map Instr.push ++ [.val e]) ((s.writeVerdict v).respond a) =
      foldInstrs (bs.map Instr.push ++ [.val e]) s := by
  induction bs generalizing s a with
  | nil =>
    simp only [List.map_nil, List.nil_append, foldInstrs_singleton, exec_respond, exec_val_writeVerdict]
  | cons b bs ih =>
    rw [List.map_cons, List.cons_append]
    rcases Nat.lt_or_ge s.count 64 with hlt | hfull
    · rw [foldInstrs_cons_of_next (exec_push_of_lt s b hlt),
        foldInstrs_cons_of_next (exec_push_of_lt ((s.writeVerdict v).respond a) b hlt)]
      rfl
    · rw [foldInstrs_cons_of_next (exec_push_of_le s b hfull),
        foldInstrs_cons_of_next (exec_push_of_le ((s.writeVerdict v).respond a) b hfull)]
      exact ih s.pushFull (.refuse .eFull)

/-! ### What lies at or above `CNT` (10_state.md R27) -/

/-- The two states have the same registers and the same bytes below `CNT`. -/
structure State.AgreesBelowCount (s s' : State) : Prop where
  cnt : s'.cnt = s.cnt
  status : s'.status = s.status
  rcode : s'.rcode = s.rcode
  plen : s'.plen = s.plen
  ovf : s'.ovf = s.ovf
  bytes : ∀ a, a < s.count → s'.load a = s.load a

namespace State.AgreesBelowCount

variable {s s' t : State}

theorem count_eq (hs : s.AgreesBelowCount s') : s'.count = s.count := congrArg BitVec.toNat hs.cnt

theorem payloadLen_eq (hs : s.AgreesBelowCount s') : s'.payloadLen = s.payloadLen :=
  congrArg BitVec.toNat hs.plen

/-- A quiet command answers alike in both. -/
theorem exec_quiet {i : Instr} (hs : s.AgreesBelowCount s') (hinv : s.Inv) (hq : quiet i = true)
    (h : exec i s = .next t) : ∃ a, t = s.respond a ∧ exec i s' = .next (s'.respond a) := by
  cases i with
  | nop => cases h; exact ⟨_, rfl, rfl⟩
  | clr | push b | val e => cases hq
  | rdp k =>
    rcases exec_rdp_next h with ⟨hst, hlt, b, hb, rfl⟩ | ⟨hno, rfl⟩
    · exact ⟨_, rfl, exec_rdp_of_lt (hs.status.trans hst) (hs.payloadLen_eq ▸ hlt)
        ((hs.bytes _ (hinv.payload_lt_count hst hlt)).trans hb)⟩
    · rw [← hs.status, ← hs.payloadLen_eq] at hno
      exact ⟨_, rfl, exec_rdp_of_not hno⟩
  | rdb k =>
    rcases exec_rdb_next h with ⟨hlt, b, hb, rfl⟩ | ⟨hge, rfl⟩
    · refine ⟨_, rfl, ?_⟩
      rw [exec_rdb_of_lt (hs.count_eq ▸ hlt), hs.bytes _ hlt, hb]
      rfl
    · exact ⟨_, rfl, exec_rdb_of_le (hs.count_eq ▸ hge)⟩
  | rdr r =>
    obtain ⟨a, ha, rfl⟩ := exec_rdr_next h
    exact ⟨a, rfl, State.answer_next.2 ⟨a, (s.readReg_congr s' r hs.cnt hs.status hs.rcode hs.plen hs.ovf
      hs.bytes).trans ha, rfl⟩⟩

/-- `DecodeReply` gives both the same verdict. -/
theorem decodeReply_eq (hs : s.AgreesBelowCount s') (e : Byte) :
    decodeReply e s'.load s'.count = decodeReply e s.load s.count := by
  rw [hs.count_eq]
  exact decodeReply_congr e hs.bytes

end State.AgreesBelowCount

/-! ### Reading a payload (42_readout.md R120) -/

/-- The data bytes of a reply stand from index 6 on, one by one. -/
theorem makeReply_getElem? {rc o b : Byte} {P F : List Byte} {k : Nat} (hle : P.length ≤ 252)
    (h : makeReply rc o P = some F) (hb : P[k]? = some b) : F[6 + k]? = some b := by
  obtain ⟨hk, -⟩ := List.getElem?_eq_some_iff.1 hb
  rw [← makeReply_payload hle h, List.getElem?_take_of_lt hk, List.getElem?_drop] at hb
  exact hb

/-- `RDR PLEN` answers the payload length. -/
theorem exec_rdr_plen (s : State) :
    exec (.rdr .plen) s = .next { s with rsp := some (BitVec.ofNat 16 s.payloadLen) } := by
  rw [State.payloadLen, BitVec.ofNat_toNat]
  exact congrArg Host.Outcome.next (s.respond_value (by decide) s.plen)

/-- With an accepted reply held, `RDP` gives its data bytes. -/
theorem State.Holds.read_payload {t : State} {o : Byte} {P F : List Byte} (h : t.Holds F)
    (hP : P.length ≤ 57) (hF : makeReply 0x00 o P = some F) (hst : t.status = .stOk)
    (hlen : t.payloadLen = P.length) {k : Nat} {b : Byte} (hb : P[k]? = some b) :
    exec (.rdp (BitVec.ofNat 8 k)) t = .next { t with rsp := some (b.setWidth 16) } := by
  obtain ⟨hk, -⟩ := List.getElem?_eq_some_iff.1 hb
  have hk8 : (BitVec.ofNat 8 k).toNat = k := Nat.mod_eq_of_lt (by omega)
  have hbyte : F[6 + k]? = some b := makeReply_getElem? (by omega) hF hb
  obtain ⟨hi, -⟩ := List.getElem?_eq_some_iff.1 hbyte
  obtain ⟨-, hload⟩ := h
  refine exec_rdp_of_lt hst ?_ ?_
  · rwa [hk8, hlen]
  · rw [hk8, hload _ hi, hbyte]

/-! ### The obligations -/

/-- Settles O1: the decoder reads back the two fields `encode` writes, and drops no bit of a word. -/
theorem decodeEncodeRoundTrip : Obligations.DecodeEncodeRoundTrip :=
  ⟨fun _ => decode_encode, fun _ _ h => ⟨wf_of_decode h, encode_of_decode h⟩⟩

/-- Settles O43, by the cases of a step. -/
theorem stepKeepsInvariant : Obligations.StepKeepsInvariant := fun _ _ => State.Inv.step

/-- Settles O45: a step leaves `BUF`, empties it, or writes below the capacity. -/
theorem stepKeepsBufferCanonical : Obligations.StepKeepsBufferCanonical := fun _ _ => step_buf_wf

/-- Settles O2: the rows a word selects are those of the command it decodes to, and there is at most one. -/
theorem decoderAgreesWithOpcodeMap : Obligations.DecoderAgreesWithOpcodeMap := by
  refine ⟨fun cw => ⟨?_, ?_⟩, fun cw i hd => ?_, fun cw r hr r' hr' hsel hsel' => ?_⟩
  · rintro ⟨i, hd⟩
    exact ⟨i.row, (mem_opcodeMap_selects_iff cw _).2 ⟨i, hd, rfl⟩⟩
  · rintro ⟨r, hrow⟩
    obtain ⟨i, hd, -⟩ := (mem_opcodeMap_selects_iff cw r).1 hrow
    exact ⟨i, hd⟩
  · obtain ⟨hmem, hsel⟩ := (mem_opcodeMap_selects_iff cw _).2 ⟨i, hd, rfl⟩
    exact ⟨i.row, hmem, hsel, i.row_mnemonic⟩
  · obtain ⟨i, hd, rfl⟩ := (mem_opcodeMap_selects_iff cw r).1 ⟨hr, hsel⟩
    obtain ⟨i', hd', rfl⟩ := (mem_opcodeMap_selects_iff cw r').1 ⟨hr', hsel'⟩
    cases hd.symm.trans hd'
    rfl

/-- Settles O10: under the invariant every byte a command reads holds a value. -/
theorem stepIsTotal : Obligations.StepIsTotal := by
  refine ⟨fun s cw hinv => ?_, fun _ => step_isNext_of_inv⟩
  cases hd : decode cw with
  | ok i =>
    obtain ⟨t, ht⟩ := perform_isNext_of_inv hinv cw
    obtain ⟨a, ha⟩ := perform_next_rsp ht
    exact ⟨t, a.word, ht, ha, fun hno => absurd rfl (hno i)⟩
  | error err => exact ⟨_, _, perform_error hd s, rfl, fun _ => ⟨rfl, s.sameBlock_respond _⟩⟩

/-- Settles O11: every response is the word of an answer. -/
theorem responseWordShape : Obligations.ResponseWordShape := by
  intro cw s t h
  obtain ⟨a, ha⟩ := perform_next_rsp h
  obtain ⟨hbits, hrefusal⟩ := a.word_shape
  refine ⟨a.word, ha, hbits, fun herr => ?_⟩
  obtain ⟨c, hc⟩ := hrefusal herr
  rw [hc]
  cases c <;> decide

/-- Settles O19, by what a command can do to `CNT`. -/
theorem countMovesByOneOrToZero : Obligations.CountMovesByOneOrToZero := by
  intro i s t hle h
  rcases exec_next_count h with hsame | ⟨hclr, hzero⟩ | ⟨hlt, hpush, hup⟩
  · exact ⟨hsame.trans_le hle, .inl hsame⟩
  · exact ⟨hzero.trans_le (by decide), .inr (.inr ⟨hzero, hclr⟩)⟩
  · exact ⟨hup.trans_le hlt, .inr (.inl ⟨hup, hpush⟩)⟩

/-- Settles O34: under the invariant the first `VAL` has a verdict, which what follows does not see. -/
theorem prematureValLosesNothing : Obligations.PrematureValLosesNothing := by
  intro s e e' bs hinv
  obtain ⟨t, ht⟩ := exec_isNext_of_inv hinv (.val e)
  obtain ⟨v, -, rfl⟩ := exec_val_next ht
  rw [foldInstrs_cons_of_next ht]
  exact foldInstrs_push_val_of_verdict e' bs s v _

/-- Settles O41: `VAL` writes a verdict and the response word, the quiet commands the response word alone. -/
theorem nonStoringCommandsFrame : Obligations.NonStoringCommandsFrame := by
  intro i s t h hclr hpush
  cases i with
  | clr => exact absurd rfl hclr
  | push b => exact absurd rfl (hpush b)
  | val e =>
    obtain ⟨v, -, rfl⟩ := exec_val_next h
    exact ⟨fun _ => rfl, rfl, rfl, rfl, fun hval => absurd rfl (hval e)⟩
  | nop | rdp k | rdb k | rdr r =>
    obtain ⟨a, rfl⟩ := exec_quiet_next rfl h
    exact ⟨fun _ => rfl, rfl, rfl, rfl, fun _ => ⟨rfl, rfl, rfl⟩⟩

/-- Settles O42: a successful `PUSH` writes at index `CNT` alone, and a refused one not at all. -/
theorem storingCommandsFrame : Obligations.StoringCommandsFrame := by
  refine ⟨fun b s t h => ?_, fun s t h => ?_⟩
  · rcases exec_push_next h with ⟨hlt, rfl⟩ | ⟨hfull, rfl⟩
    · exact ⟨fun a ha => (s.pushByte_load b a).trans (if_neg ha), rfl, fun _ => rfl,
        fun hfull => absurd hlt (Nat.not_lt.2 hfull)⟩
    · exact ⟨fun _ _ => rfl, rfl, fun hlt => absurd hlt (Nat.not_lt.2 hfull),
        fun _ => ⟨fun _ => rfl, rfl, rfl, rfl, rfl⟩⟩
  · cases h
    exact ⟨rfl, fun _ => rfl⟩

/-- Settles O47: every byte a command or a verdict reads lies below `CNT`. -/
theorem bytesAboveCountUnobservable : Obligations.BytesAboveCountUnobservable := by
  intro i s s' t hclr hpush hinv hcnt hst hrc hpl hovf hbytes h
  have hs : s.AgreesBelowCount s' := ⟨hcnt, hst, hrc, hpl, hovf, hbytes⟩
  cases i with
  | clr => exact absurd rfl hclr
  | push b => exact absurd rfl (hpush b)
  | val e =>
    obtain ⟨v, hv, rfl⟩ := exec_val_next h
    exact ⟨_, exec_val_of_verdict ((hs.decodeReply_eq e).trans hv), rfl, rfl, rfl, rfl⟩
  | nop | rdp k | rdb k | rdr r =>
    obtain ⟨a, rfl, h'⟩ := hs.exec_quiet hinv rfl h
    exact ⟨_, h', rfl, hst, hrc, hpl⟩

/-- Settles O54: the pushes leave the reply held, `VAL` accepts it, and its data stand from index 6 on. -/
theorem exchangeDeliversPayload : Obligations.ExchangeDeliversPayload := by
  intro s o P F hP hF
  have hle : P.length ≤ 252 := by omega
  obtain ⟨F', hF', hlen, -⟩ := replyFramesWellFormed 0x00 o P hle
  obtain rfl : F' = F := Option.some.inj (hF'.symm.trans hF)
  obtain ⟨-, -, -, hdecode⟩ := decodeSequenceComputesDecodeReply
  obtain ⟨t, v, hrun, hv, hholds, hst, -, hpl, -, hrsp⟩ := hdecode s o F' (by omega)
  cases hv.symm.trans (decodeReply_makeReply hle hF)
  change t.payloadLen = P.length at hpl
  refine ⟨t, hrun, hrsp, hpl ▸ exec_rdr_plen t, fun k b => hholds.read_payload hP hF hst hpl,
    fun i hi => exec_rdp_of_not fun hlt => ?_⟩
  exact Nat.not_lt.2 hi (hpl ▸ hlt.2)

/-- Settles O55: the assembler writes well-formed commands only, and a well-formed command's word decodes to
it. -/
theorem assembledWordsDecode : Obligations.AssembledWordsDecode := by
  intro line cw h
  obtain ⟨i, hi, rfl⟩ := Option.map_eq_some_iff.1 h
  have hwf := parseLine_wf hi
  exact ⟨i, hi, hwf, decode_encode hwf, rfl⟩

/-- Settles O3, word by word. -/
theorem writtenWordsDecode : Obligations.WrittenWordsDecode :=
  ⟨rfl, rfl, rfl, rfl, rfl, rfl, rfl, rfl⟩

/-- Settles O5: a step hands the next event to its rule, with the later events still pending. -/
theorem stepRunsDecodedCommand : Obligations.StepRunsDecodedCommand := by
  refine ⟨fun s cw rest hi => ⟨fun i hd => (step_of_cons hi).trans (perform_ok hd _),
    fun err hd => (step_of_cons hi).trans (perform_error hd _)⟩, fun s rest => step_of_cons,
    fun s cw i hd => ?_, fun s => step_of_nil⟩
  rw [State.withFetchWord, tableWord_toNat]
  exact (step_of_cons (s.issue_inbox cw)).trans (perform_ok hd s)

/-- Settles O6: a reset and `CLR` share `clearBlock`, after which no index lies below `CNT`. -/
theorem resetEventEffect : Obligations.ResetEventEffect := fun s =>
  ⟨resetEvent s, rfl, rfl, rfl, rfl, rfl, rfl, rfl, exec_clr s,
    fun _ => exec_rdb_of_le (s := resetEvent s) (Nat.zero_le _), step_of_nil rfl⟩

/-- Settles O44: the reset state is one `CLR` leaves. -/
theorem resetMeetsInvariant : Obligations.ResetMeetsInvariant := State.resetWith_inv

end Sys2Proof.Machine
end
